-- ==== Sys2Proof/Word.lean ====
section
/-! DEFINITION. The widths the spec fixes (00_scope.md R7, R8): an 8-bit byte, a 32-bit word (every register, CMD, DATA and RESULT), a 4-bit field (SEL, a packet type, the header flags, STATUS). Nothing is signed (R8). -/

namespace Sys2Proof

/-- One byte of BUF (20_memory.md R31). -/
abbrev Byte := BitVec 8

/-- A register, CMD, DATA or RESULT (00_scope.md R7). -/
abbrev Word := BitVec 32

/-- A 4-bit field: SEL, a packet type code, the header flags, STATUS (00_scope.md R7). -/
abbrev Nibble := BitVec 4

end Sys2Proof
end

