-- ==== Sys2Proof/Config.lean ====
section
/-! DEFINITION. What an instance of the block fixes (its parameters, 00_scope.md R5 and R6) and the one free value of the spec (the bytes of BUF after reset, 20_memory.md R31). -/

namespace Sys2Proof

/-- The two OPEN parameters of the block (00_scope.md R5, R6; 93_implementation_defined.md I2, I3).
They stand in State, so that every statement over all states holds for every instance; no step changes them. -/
structure Params where
  /-- BUF_SIZE: how many bytes BUF has (R5). -/
  bufSize : Nat
  /-- P_STRICT_CANONICAL: the VarInt decoder rejects a non-minimal encoding (R6). -/
  strict : Bool
deriving DecidableEq, Repr

/-- The values R5 allows: 1 <= BUF_SIZE <= 2^32 - 1. P_STRICT_CANONICAL may be either (R6). -/
abbrev Params.Legal (p : Params) : Prop := 1 ≤ p.bufSize ∧ p.bufSize ≤ 2 ^ 32 - 1

/-- The instance that State.reset is: BUF_SIZE = 32, P_STRICT_CANONICAL = false, the conventions of 95_test_vectors.md.
DESIGN CHOICE (log entries 1 and 2), unsafe for a claim about State.reset alone: the spec leaves both OPEN. -/
def Params.standard : Params := { bufSize := 32, strict := false }

/-- FREE VALUE (log entry 3): what the byte of BUF at an address holds after reset, until a command writes it
(20_memory.md R31; 93_implementation_defined.md I1: one free draw per byte at reset). The first argument says which
reset drew it, the second is the address. It has no body: nothing is known of any value of it. -/
opaque Config.resetByte : Nat → Nat → Byte

end Sys2Proof
end

