-- ==== Sys2Proof/Syntax.lean ====
section
/-! DEFINITION. The commands of the block (30_encoding.md R47), one constructor of Instr per row of spec/opcode_table.json, with the registers (10_state.md R14) and the packet kinds (42_header.md R81) their operands name. -/

namespace Sys2Proof

/-- The eleven registers of the register file (10_state.md R14), SEL 0 to 10 in this order. `wend` is END. -/
inductive Reg where
  | cur | wend | oend | src | val | len | soff | slen | hdr | ferr | fpos
deriving DecidableEq, Repr

/-- The fourteen packet kinds (42_header.md R81), codes 1 to 14 in this order. Codes 0 and 15 name none (90_conflicts.md C1). -/
inductive PacketKind where
  | connect | connack | publish | puback | pubrec | pubrel | pubcomp
  | subscribe | suback | unsubscribe | unsuback | pingreq | pingresp | disconnect
deriving DecidableEq, Repr

/-- A command (30_encoding.md R47) with the operands it uses (R45, R46, R48). A DATA word that a command ignores is no
operand (R46, log entry 11). A packet type stays the 4-bit value of SEL, since the rules compare it as one. -/
inductive Instr where
  /-- NOP (R90). -/
  | nop
  /-- WRREG (R91): SEL names the register, DATA is the value. -/
  | wrreg (r : Reg) (d : Word)
  /-- RDREG (R92): SEL names the register. -/
  | rdreg (r : Reg)
  /-- VENC (R62): DATA is the value to encode. -/
  | venc (v : Word)
  /-- VDEC (R63). -/
  | vdec
  /-- SENC (R71): DATA is the string's length. -/
  | senc (len : Word)
  /-- SDEC (R72). -/
  | sdec
  /-- WR16 (R73): DATA is the value. -/
  | wr16 (w : Word)
  /-- RD16 (R74). -/
  | rd16
  /-- FENC (R86): SEL is the packet type, DATA[3:0] the flags, DATA[31:4] the remaining length. -/
  | fenc (t : Nibble) (flags : Nibble) (rl : BitVec 28)
  /-- FDEC (R85): SEL is the expected type, 0 = any. -/
  | fdec (e : Nibble)
  /-- HDEC (R84): SEL is the expected type, 0 = any. -/
  | hdec (e : Nibble)
  /-- FEXIT (R87). -/
  | fexit
  /-- PUTB (R93): DATA is the byte. -/
  | putb (d : Word)
  /-- GETB (R94). -/
  | getb
deriving DecidableEq, Repr

/-- The opcodes of 30_encoding.md R47, by name. -/
inductive Opcode where
  | nop | wrreg | rdreg | venc | vdec | senc | sdec | wr16 | rd16 | fenc | fdec | hdec | fexit | putb | getb
deriving DecidableEq, Repr

/-- The opcode of a command. -/
def Instr.opcode : Instr → Opcode
  | .nop => .nop
  | .wrreg _ _ => .wrreg
  | .rdreg _ => .rdreg
  | .venc _ => .venc
  | .vdec => .vdec
  | .senc _ => .senc
  | .sdec => .sdec
  | .wr16 _ => .wr16
  | .rd16 => .rd16
  | .fenc _ _ _ => .fenc
  | .fdec _ => .fdec
  | .hdec _ => .hdec
  | .fexit => .fexit
  | .putb _ => .putb
  | .getb => .getb

end Sys2Proof
end

