-- ==== Sys2Proof/WellFormed.lean ====
section
/-! DEFINITION. Which commands are legal (30_encoding.md R49 (d), (e), (f)). What R49 (a), (b) and (c) and reserved register indices forbid cannot be written as an Instr at all. -/

namespace Sys2Proof

/-- The registers WRREG may name: CUR, END, OEND, SRC and FERR (10_state.md R14; 43_control.md R91). -/
def Reg.writable : Reg → Bool
  | .cur | .wend | .oend | .src | .ferr => true
  | .val | .len | .soff | .slen | .hdr | .fpos => false

/-- The legality of a command's fields: WRREG names a writable register (R49 d), FENC a type that is not 0 or 15
(R49 e), FDEC and HDEC a type that is not 15 (R49 f). -/
def Instr.wf : Instr → Bool
  | .wrreg r _ => r.writable
  | .fenc t _ _ => t != 0 && t != 15
  | .fdec e => e != 15
  | .hdec e => e != 15
  | .nop => true
  | .rdreg _ => true
  | .venc _ => true
  | .vdec => true
  | .senc _ => true
  | .sdec => true
  | .wr16 _ => true
  | .rd16 => true
  | .fexit => true
  | .putb _ => true
  | .getb => true

end Sys2Proof
end

