-- ==== Sys2Proof/Decode.lean ====
section
/-! DEFINITION. From the two words of a request to a command or a named rejection (30_encoding.md R45 to R50), and the encoder back. -/

namespace Sys2Proof

/-! ### The fields of CMD (R45) and the numbers of opcodes and registers (R47, 10_state.md R14) -/

/-- OPC = CMD[7:0]. -/
def opcOf (cmd : Word) : Byte := cmd.extractLsb' 0 8

/-- SEL = CMD[11:8]. -/
def selOf (cmd : Word) : Nibble := cmd.extractLsb' 8 4

/-- RSVD = CMD[31:12]. -/
def rsvdOf (cmd : Word) : BitVec 20 := cmd.extractLsb' 12 20

/-- The CMD word with these fields and RSVD 0. -/
def cmdWord (sel : Nibble) (opc : Byte) : Word := (0 : BitVec 20) ++ sel ++ opc

/-- FENC's flags, DATA[3:0] (R48). -/
def fencFlags (data : Word) : Nibble := data.extractLsb' 0 4

/-- FENC's remaining length, DATA[31:4] (R48). -/
def fencLength (data : Word) : BitVec 28 := data.extractLsb' 4 28

/-- FENC's DATA, (rl << 4) | flags (R53). -/
def fencData (flags : Nibble) (rl : BitVec 28) : Word := rl ++ flags

/-- The opcode map of R47. -/
def Opcode.byte : Opcode → Byte
  | .nop => 0x00
  | .wrreg => 0x01
  | .rdreg => 0x02
  | .venc => 0x10
  | .vdec => 0x11
  | .senc => 0x20
  | .sdec => 0x21
  | .wr16 => 0x22
  | .rd16 => 0x23
  | .fenc => 0x30
  | .fdec => 0x31
  | .hdec => 0x32
  | .fexit => 0x33
  | .putb => 0x40
  | .getb => 0x41

/-- All opcodes, in the order of R47. -/
def Opcode.all : List Opcode :=
  [.nop, .wrreg, .rdreg, .venc, .vdec, .senc, .sdec, .wr16, .rd16, .fenc, .fdec, .hdec, .fexit, .putb, .getb]

/-- The opcode a byte names; every byte that is not in R47's table names none (R49 a). -/
def Opcode.ofByte (b : Byte) : Option Opcode := Opcode.all.find? fun o => o.byte == b

/-- The index of a register (10_state.md R14). -/
def Reg.sel : Reg → Nibble
  | .cur => 0
  | .wend => 1
  | .oend => 2
  | .src => 3
  | .val => 4
  | .len => 5
  | .soff => 6
  | .slen => 7
  | .hdr => 8
  | .ferr => 9
  | .fpos => 10

/-- All registers, in the order of their indices. -/
def Reg.all : List Reg := [.cur, .wend, .oend, .src, .val, .len, .soff, .slen, .hdr, .ferr, .fpos]

/-- The register an index names; 11 to 15 name none (10_state.md R26). -/
def Reg.ofSel (sel : Nibble) : Option Reg := Reg.all.find? fun r => r.sel == sel

/-! ### Decoding -/

/-- Why a request is illegal (R49). Each raises IllegalCommand and nothing else. -/
inductive Illegal where
  /-- R49 (a): OPC is not in the table of R47. -/
  | reservedOpcode
  /-- R49 (b): CMD[31:12] is not 0. -/
  | reservedBits
  /-- R49 (c): SEL is not 0 for an opcode that does not use it. -/
  | unusedSel
  /-- R49 (d): WRREG or RDREG with SEL in 11..15. -/
  | reservedRegister
  /-- R49 (d): WRREG with SEL naming a read-only register. -/
  | readOnlyRegister
  /-- R49 (e): FENC with SEL 0 or 15. -/
  | reservedType
  /-- R49 (f): HDEC or FDEC with SEL 15. -/
  | reservedExpectedType
deriving DecidableEq, Repr

/-- A command whose SEL must be 0 (R49 c). -/
def withoutSel (sel : Nibble) (i : Instr) : Except Illegal Instr :=
  if sel = 0 then .ok i else .error .unusedSel

/-- WRREG's operands (R49 d, R91). -/
def decodeWrreg (sel : Nibble) (data : Word) : Except Illegal Instr :=
  match Reg.ofSel sel with
  | none => .error .reservedRegister
  | some r => if r.writable then .ok (.wrreg r data) else .error .readOnlyRegister

/-- RDREG's operand (R49 d, R92). -/
def decodeRdreg (sel : Nibble) : Except Illegal Instr :=
  match Reg.ofSel sel with
  | none => .error .reservedRegister
  | some r => .ok (.rdreg r)

/-- FENC's operands (R48, R49 e). -/
def decodeFenc (sel : Nibble) (data : Word) : Except Illegal Instr :=
  if sel = 0 ∨ sel = 15 then .error .reservedType else .ok (.fenc sel (fencFlags data) (fencLength data))

/-- HDEC's and FDEC's operand (R49 f). -/
def decodeExpected (sel : Nibble) (i : Instr) : Except Illegal Instr :=
  if sel = 15 then .error .reservedExpectedType else .ok i

/-- The operands of a known opcode (R46, R47, R48). -/
def decodeOperands (o : Opcode) (sel : Nibble) (data : Word) : Except Illegal Instr :=
  match o with
  | .nop => withoutSel sel .nop
  | .wrreg => decodeWrreg sel data
  | .rdreg => decodeRdreg sel
  | .venc => withoutSel sel (.venc data)
  | .vdec => withoutSel sel .vdec
  | .senc => withoutSel sel (.senc data)
  | .sdec => withoutSel sel .sdec
  | .wr16 => withoutSel sel (.wr16 data)
  | .rd16 => withoutSel sel .rd16
  | .fenc => decodeFenc sel data
  | .fdec => decodeExpected sel (.fdec sel)
  | .hdec => decodeExpected sel (.hdec sel)
  | .fexit => withoutSel sel .fexit
  | .putb => withoutSel sel (.putb data)
  | .getb => withoutSel sel .getb

/-- The command a request asks for, or why it is illegal (R45 to R50). -/
def decode (cmd data : Word) : Except Illegal Instr :=
  if rsvdOf cmd ≠ 0 then .error .reservedBits
  else match Opcode.ofByte (opcOf cmd) with
    | none => .error .reservedOpcode
    | some o => decodeOperands o (selOf cmd) data

/-! ### Encoding -/

/-- SEL of a command's CMD word (R47). -/
def Instr.sel : Instr → Nibble
  | .wrreg r _ => r.sel
  | .rdreg r => r.sel
  | .fenc t _ _ => t
  | .fdec e => e
  | .hdec e => e
  | .nop | .venc _ | .vdec | .senc _ | .sdec | .wr16 _ | .rd16 | .fexit | .putb _ | .getb => 0

/-- DATA of a command (R46); a DATA word that is ignored assembles as 0 (R53). -/
def Instr.data : Instr → Word
  | .wrreg _ d => d
  | .venc v => v
  | .senc len => len
  | .wr16 w => w
  | .fenc _ flags rl => fencData flags rl
  | .putb d => d
  | .nop | .rdreg _ | .vdec | .sdec | .rd16 | .fdec _ | .hdec _ | .fexit | .getb => 0

/-- The CMD and DATA words of a command (R45 to R48). -/
def encode (i : Instr) : Word × Word := (cmdWord i.sel i.opcode.byte, i.data)

/-! ### The opcode table's numbering -/

/-- A request as one number, CMD its low 32 bits and DATA its high 32 bits, as spec/opcode_table.json numbers the bits. -/
def requestOfBits (nbits w : Nat) : Word × Word :=
  (BitVec.ofNat 32 (w % 2 ^ nbits), BitVec.ofNat 32 (w % 2 ^ nbits / 2 ^ 32))

/-- The command the decoder reads from a request of `nbits` bits `w`; the bits above `nbits` (the DATA word, where the
table gives only CMD) are 0, and a number of more than 64 bits is no request (log entry 15). -/
def decodeTableWord (nbits w : Nat) : Option Instr :=
  if 2 ^ 64 ≤ w % 2 ^ nbits then none
  else (decode (requestOfBits nbits w).1 (requestOfBits nbits w).2).toOption

end Sys2Proof
end

