-- ==== Sys2Proof/Machine/State.lean ====
section
/-! DEFINITION. The state of the block as plain data (10_state.md, 20_memory.md R31), the two ports it shares with the host (30_encoding.md R44), the reasons a step can stop, and the state after reset (70_reset_and_hazards.md R120). -/

namespace Sys2Proof.Machine

/-- The outcomes of a command (60_exceptions.md R100); their numbers are `Status.code`. Codes 8 to 15 are never produced
and have no name here; CapacityExceeded has one and is never produced either (R109, log entry 17). -/
inductive Status where
  | ok | truncated | malformed | wrongPacketType | capacityExceeded | bufferTooShort | outOfRange | illegalCommand
deriving DecidableEq, Repr

/-- The answer to a request (30_encoding.md R44, R51). -/
structure Response where
  status : Status
  result : Word
deriving DecidableEq, Repr

/-- What the host can do to the block: issue a request (30_encoding.md R44), or reset it between two commands
(70_reset_and_hazards.md R120, R121; log entry 8). -/
inductive HostAction where
  | issue (cmd data : Word)
  | reset
deriving DecidableEq, Repr

/-- The bytes of BUF that commands have written, by rising address (20_memory.md R31; log entry 4). An address that is
not listed holds the value it had after reset. -/
abbrev Memory := List Host.Cell

/-- The canonical form of a memory: addresses strictly rising. -/
abbrev Memory.wf (m : Memory) : Bool := decide (m.Pairwise fun x y => x.1 < y.1)

/-- The state of the block. -/
structure State where
  /-- BUF_SIZE and P_STRICT_CANONICAL (00_scope.md R5, R6); no step changes them. -/
  params : Params
  /-- CUR, the cursor (R15). -/
  cur : Word
  /-- END, the window's end (R16). -/
  wend : Word
  /-- OEND, the outer window's end (R17). -/
  oend : Word
  /-- SRC, the string source address (R18). -/
  src : Word
  /-- VAL, the last value decoded (R19). -/
  val : Word
  /-- LEN, the bytes the last successful buffer command moved (R20). -/
  len : Word
  /-- SOFF, the string view's offset (R21). -/
  soff : Word
  /-- SLEN, the string view's length (R22). -/
  slen : Word
  /-- HDR, the last decoded header byte (R23). -/
  hdr : Word
  /-- FERR, the first error (R24). -/
  ferr : Word
  /-- FPOS, the first error's position (R25). -/
  fpos : Word
  /-- BUF (R31): the bytes written since reset. -/
  mem : Memory
  /-- What the host will still do, in order (R28, R54): the HOST's program, not a queue in the block (R30; log entry 5). -/
  host : List HostAction
  /-- The response on the command port, the last one given (R44, R51; log entry 6). -/
  response : Option Response
  /-- The MODEL's own: which draw of the unspecified reset bytes of BUF is in force (R31, R120; log entry 3). -/
  draw : Nat
deriving DecidableEq, Repr

/-- Why a step can stop with a fault. -/
inductive Fault where
  /-- Raised by memRead, memByte and memWrite for an access of which some byte is at or above BUF_SIZE, an address that does
  not exist (20_memory.md R31). R32 and 10_state.md R27 rule it out, so no state a run reaches meets it (log entry 10).
  Safe: the machine stops where the spec says nothing happens. -/
  | outsideBuffer (addr : Nat)
deriving DecidableEq, Repr

/-- Why a step can be refused. -/
inductive Refusal where
  /-- Raised by exec for an instruction without a meaning; every instruction has one, so nobody raises it. Safe. -/
  | notModelled (mnemonic : String)
deriving DecidableEq, Repr

/-- The state right after a reset (70_reset_and_hazards.md R120) of an instance with parameters `p`: every register 0,
no byte of BUF written, the bytes of BUF those of the draw `draw`, the engine idle; `host` is what the host does next. -/
def State.resetWith (p : Params) (draw : Nat) (host : List HostAction) : State where
  params := p
  cur := 0
  wend := 0
  oend := 0
  src := 0
  val := 0
  len := 0
  soff := 0
  slen := 0
  hdr := 0
  ferr := 0
  fpos := 0
  mem := []
  host := host
  response := none
  draw := draw

/-- The machine right after reset (R120), the instance being the one of log entries 1 and 2, with a host that does nothing yet. -/
def State.reset : State := State.resetWith Params.standard 0 []

end Sys2Proof.Machine
end

