-- ==== Sys2Proof/Machine/Flags.lean ====
section
/-! DEFINITION. The bit fields the rules compute: the status numbers (60_exceptions.md R100), the fields of FERR (10_state.md R24), the header byte with its type code, kind and flags (42_header.md R80 to R83; the fields of HDR, 10_state.md R23). The block has no flags register (R29). -/

namespace Sys2Proof.Machine

/-- The 4-bit STATUS code (R100). -/
def Status.code : Status → Nibble
  | .ok => 0
  | .truncated => 1
  | .malformed => 2
  | .wrongPacketType => 3
  | .capacityExceeded => 4
  | .bufferTooShort => 5
  | .outOfRange => 6
  | .illegalCommand => 7

/-! ### FERR (R24, R102) -/

/-- FERR.CODE, bits 3:0. -/
def ferrCode (ferr : Word) : Nibble := ferr.extractLsb' 0 4

/-- FERR.OPC, bits 15:8. -/
def ferrOpc (ferr : Word) : Byte := ferr.extractLsb' 8 8

/-- The FERR word of a first failure: (opc << 8) | code (R102). -/
def ferrWord (opc : Byte) (c : Status) : Word := (opc.zeroExtend 32 <<< 8) ||| c.code.zeroExtend 32

/-! ### The header byte (R80 to R83) -/

/-- HdrByte(t, f) = (t << 4) | f (R80). -/
def hdrByte (t f : Nibble) : Byte := (t.zeroExtend 8 <<< 4) ||| f.zeroExtend 8

/-- HdrType(b) = b[7:4] (R80). -/
def hdrType (b : Byte) : Nibble := b.extractLsb' 4 4

/-- HdrFlags(b) = b[3:0] (R80). -/
def hdrFlags (b : Byte) : Nibble := b.extractLsb' 0 4

/-- The packet type codes (R81). -/
def kindCode : PacketKind → Nibble
  | .connect => 1
  | .connack => 2
  | .publish => 3
  | .puback => 4
  | .pubrec => 5
  | .pubrel => 6
  | .pubcomp => 7
  | .subscribe => 8
  | .suback => 9
  | .unsubscribe => 10
  | .unsuback => 11
  | .pingreq => 12
  | .pingresp => 13
  | .disconnect => 14

/-- All kinds, in the order of their codes. -/
def allKinds : List PacketKind :=
  [.connect, .connack, .publish, .puback, .pubrec, .pubrel, .pubcomp,
    .subscribe, .suback, .unsubscribe, .unsuback, .pingreq, .pingresp, .disconnect]

/-- The kind a type code names; 0 and 15 are reserved and name none (R81). -/
def kindOf (t : Nibble) : Option PacketKind := allKinds.find? fun k => kindCode k == t

/-- A type code is valid when it names a kind (R81). -/
def validType (t : Nibble) : Bool := (kindOf t).isSome

/-- RETAIN = f[0] (R82; G1, log entry 12). -/
def flagRetain (f : Nibble) : Bool := f.getLsbD 0

/-- QOS = f[2:1] (R82; G1, log entry 12). -/
def flagQos (f : Nibble) : BitVec 2 := f.extractLsb' 1 2

/-- DUP = f[3] (R82; G1, log entry 12). -/
def flagDup (f : Nibble) : Bool := f.getLsbD 3

/-- A PUBLISH type with QoS level 3, which is no level (R82). The flags of every other type are not looked at. -/
def badQos (t f : Nibble) : Bool := kindOf t == some .publish && flagQos f == 3

/-- A kind with no payload and a zero remaining length: PINGREQ, PINGRESP, DISCONNECT (R83). -/
def zeroLengthKind (t : Nibble) : Bool :=
  kindOf t == some .pingreq || kindOf t == some .pingresp || kindOf t == some .disconnect

/-! ### The fields of HDR (10_state.md R23) -/

/-- HDR.TYPE, bits 7:4. -/
def hdrRegType (hdr : Word) : Nibble := hdrType (hdr.extractLsb' 0 8)

/-- HDR.FLAGS, bits 3:0. -/
def hdrRegFlags (hdr : Word) : Nibble := hdrFlags (hdr.extractLsb' 0 8)

end Sys2Proof.Machine
end

