-- ==== Sys2Proof/Machine/Ops.lean ====
section
/-! DEFINITION. The operations every command is made of: the register file, the bytes of BUF, the window test, succeeding and failing (00_scope.md R9; 20_memory.md R32, R33; 30_encoding.md R52; 60_exceptions.md R101, R102), and what the host does between commands. -/

namespace Sys2Proof.Machine

/-- A number as a 32-bit word. Every number a command narrows so is below 2^32 (log entry 16). -/
abbrev word (n : Nat) : Word := BitVec.ofNat 32 n

/-! ### The register file (10_state.md R14) -/

/-- `REG` alone reads it (R9). -/
def State.reg (s : State) : Reg → Word
  | .cur => s.cur
  | .wend => s.wend
  | .oend => s.oend
  | .src => s.src
  | .val => s.val
  | .len => s.len
  | .soff => s.soff
  | .slen => s.slen
  | .hdr => s.hdr
  | .ferr => s.ferr
  | .fpos => s.fpos

/-- `REG <- v` (R9). -/
def State.setReg (s : State) (r : Reg) (v : Word) : State :=
  match r with
  | .cur => { s with cur := v }
  | .wend => { s with wend := v }
  | .oend => { s with oend := v }
  | .src => { s with src := v }
  | .val => { s with val := v }
  | .len => { s with len := v }
  | .soff => { s with soff := v }
  | .slen => { s with slen := v }
  | .hdr => { s with hdr := v }
  | .ferr => { s with ferr := v }
  | .fpos => { s with fpos := v }

/-- A cursor command that moved `n` bytes: CUR <- CUR + n; LEN <- n (R15, R20). -/
def State.advance (s : State) (n : Nat) : State :=
  { s with cur := word (s.cur.toNat + n), len := word n }

/-! ### BUF (20_memory.md R31, R33) -/

/-- The byte listed at an address, if one is. -/
def Memory.lookup : Memory → Nat → Option Byte
  | [], _ => none
  | (k, b) :: m, a => if k = a then some b else Memory.lookup m a

/-- Write one byte, keeping the addresses rising. -/
def Memory.store : Memory → Nat → Byte → Memory
  | [], a, v => [(a, v)]
  | (k, b) :: m, a, v =>
    if a < k then (a, v) :: (k, b) :: m
    else if a = k then (a, v) :: m
    else (k, b) :: Memory.store m a v

/-- BUF[a+k] <- bs[k] for k = 0.. (R33). -/
def Memory.storeAll : Memory → Nat → List Byte → Memory
  | m, _, [] => m
  | m, a, b :: bs => Memory.storeAll (m.store a b) (a + 1) bs

/-- BUF[a]: the byte a command last wrote there, and before that its unspecified reset value (R31, log entry 3). -/
def State.byteAt (s : State) (a : Nat) : Byte := (s.mem.lookup a).getD (Config.resetByte s.draw a)

/-- BUF[a], ..., BUF[a+n-1], in address order. -/
def State.bytesAt (s : State) (a n : Nat) : List Byte := (List.range n).map fun k => s.byteAt (a + k)

/-! ### The pseudocode's outcomes (R9) -/

/-- How the pseudocode of a command ends other than by `succeed`. -/
inductive Stop where
  /-- `raise Code`: the command fails (R101). -/
  | raised (c : Status)
  /-- An access to a byte that does not exist (log entry 10). -/
  | fault (f : Fault)
deriving DecidableEq, Repr

/-- A part of a command's pseudocode: a value, or a stop. -/
abbrev Cmd := Except Stop

/-- `raise Code` (R9). -/
def raise {α : Type} (c : Status) : Cmd α := .error (.raised c)

/-- `if not p: raise Code`. -/
def check (p : Prop) [Decidable p] (c : Status) : Cmd Unit := if p then .ok () else raise c

/-- InWin(n) = (CUR + n <= END), in exact integers (R32, R10). -/
abbrev State.inWin (s : State) (n : Nat) : Prop := s.cur.toNat + n ≤ s.wend.toNat

/-- MemRead(a, n) (R33). -/
def memRead (s : State) (a n : Nat) : Cmd (List Byte) :=
  if a + n ≤ s.params.bufSize then .ok (s.bytesAt a n) else .error (.fault (.outsideBuffer a))

/-- MemRead(a, 1), as the byte it reads (R33). -/
def memByte (s : State) (a : Nat) : Cmd Byte :=
  if a < s.params.bufSize then .ok (s.byteAt a) else .error (.fault (.outsideBuffer a))

/-- MemWrite(a, n, bs) with n the number of bytes (R33). -/
def memWrite (s : State) (a : Nat) (bs : List Byte) : Cmd State :=
  if a + bs.length ≤ s.params.bufSize then .ok { s with mem := s.mem.storeAll a bs }
  else .error (.fault (.outsideBuffer a))

/-! ### Responding and failing (30_encoding.md R51, R52; 60_exceptions.md R101, R102) -/

/-- Put a response on the command port. -/
def State.respond (s : State) (c : Status) (r : Word) : State := { s with response := some ⟨c, r⟩ }

/-- The first-error capture (R102): only while FERR.CODE is 0. -/
def State.capture (s : State) (c : Status) (opc : Byte) : State :=
  if ferrCode s.ferr = 0 then { s with ferr := ferrWord opc c, fpos := s.cur } else s

/-- A command fails (R52): none of its writes happen, the capture runs, and the response is (code, 0). This is what the
block has in place of taking an exception (R104); there is nothing to return from (R106). -/
def State.fail (s : State) (c : Status) (opc : Byte) : State := (s.capture c opc).respond c 0

/-- The end of a command issued in state `s` (R52): `succeed(r)` commits the writes and answers (OK, r), a raise fails. -/
def answer (o : Opcode) (s : State) : Cmd (State × Word) → Host.Outcome State Fault Refusal
  | .ok (t, r) => .next (t.respond .ok r)
  | .error (.raised c) => .next (s.fail c o.byte)
  | .error (.fault f) => .fault f

/-! ### Between commands -/

/-- The host's next request is taken off its program. -/
def State.withHost (s : State) (h : List HostAction) : State := { s with host := h }

/-- A reset (70_reset_and_hazards.md R120): the reset state of the same instance, BUF's bytes drawn anew (log entry 8). -/
def State.afterReset (s : State) (rest : List HostAction) : State := State.resetWith s.params (s.draw + 1) rest

end Sys2Proof.Machine
end

