-- ==== Sys2Proof/Machine/Operands.lean ====
section
/-! DEFINITION. The data formats in BUF (VarInt: 40_varint.md R60, R61; 2-byte fields and strings: 20_memory.md R35, 41_string.md R70) and the two ways the commands use them: writing bytes at the cursor, and reading the header byte there (42_header.md R84, R85). -/

namespace Sys2Proof.Machine

/-! ### The VarInt encoder (R60) -/

/-- The largest VarInt value, 268,435,455 (00_scope.md R7). -/
def maxVarInt : Nat := 268435455

/-- EncLen(v) (R60). -/
def encLen (v : Nat) : Nat :=
  if v < 2 ^ 7 then 1 else if v < 2 ^ 14 then 2 else if v < 2 ^ 21 then 3 else 4

/-- g_i = (v >> (7*i)) & 0x7F (R60). -/
def varGroup (v i : Nat) : Byte := BitVec.ofNat 8 ((v >>> (7 * i)) &&& 0x7F)

/-- EncBytes(v): the groups, least significant first, all but the last with the continuation bit (R60, R34). -/
def encBytes (v : Nat) : List Byte :=
  (List.range (encLen v)).map fun i => if i + 1 < encLen v then varGroup v i ||| 0x80 else varGroup v i

/-! ### The VarInt decoder (R61) -/

/-- The loop of VarDec from byte `i` on, `k` bytes being left of the four. -/
def varDecFrom (s : State) (p e : Nat) (k i value : Nat) : Cmd (Nat × Nat) :=
  match k with
  | 0 => raise .malformed
  | k + 1 => do
    check (p + i < e) .truncated
    let b ← memByte s (p + i)
    let value' := value + ((b &&& 0x7F).toNat <<< (7 * i))
    if b.getLsbD 7 = false then do
      check (¬ (s.params.strict = true ∧ i + 1 > 1 ∧ b = 0)) .malformed
      pure (value', i + 1)
    else varDecFrom s p e k (i + 1) value'

/-- VarDec(p, e) (R61): the value and its length, or Truncated, or Malformed. -/
def varDec (s : State) (p e : Nat) : Cmd (Nat × Nat) := varDecFrom s p e 4 0 0

/-! ### The 2-byte big-endian field and the string (R35, R70) -/

/-- be16(b0, b1) = b0 * 256 + b1 (R9, R35). -/
def be16 (b0 b1 : Byte) : Nat := b0.toNat * 256 + b1.toNat

/-- (w >> 8) || (w & 0xFF) (R70, R73). -/
def be16Bytes (w : Nat) : List Byte := [BitVec.ofNat 8 (w >>> 8), BitVec.ofNat 8 (w &&& 0xFF)]

/-- StrBytes(s) (R70). -/
def strBytes (s : List Byte) : List Byte := be16Bytes s.length ++ s

/-- The 2-byte field at an address. -/
def memBe16 (s : State) (a : Nat) : Cmd Nat := do
  let b0 ← memByte s a
  let b1 ← memByte s (a + 1)
  pure (be16 b0 b1)

/-! ### Bytes at the cursor -/

/-- The end of every encoder's pseudocode: the window must hold all the bytes (BufferTooShort), then they are written at
CUR, CUR moves past them, LEN and RESULT are their number (R62, R71, R73, R86, R93). -/
def emit (s : State) (bs : List Byte) : Cmd (State × Word) := do
  check (s.inWin bs.length) .bufferTooShort
  let t ← memWrite s s.cur.toNat bs
  pure (t.advance bs.length, word bs.length)

/-- The header byte at the cursor, checked against the expected type `e` (0 = any): the first six lines of HDEC's and
FDEC's pseudocode (R84, R85). -/
def headerByte (s : State) (e : Nibble) : Cmd Byte := do
  check (s.inWin 1) .truncated
  let b ← memByte s s.cur.toNat
  check (¬ (e ≠ 0 ∧ hdrType b ≠ e)) .wrongPacketType
  check (validType (hdrType b) = true) .malformed
  check (badQos (hdrType b) (hdrFlags b) = false) .malformed
  pure b

/-- The bytes a string view names (20_memory.md R43): BUF[SOFF .. SOFF+SLEN-1], as BUF holds them now. -/
def State.view (s : State) : List Byte := s.bytesAt s.soff.toNat s.slen.toNat

end Sys2Proof.Machine
end

