-- ==== Sys2Proof/Machine/Control.lean ====
section
/-! DEFINITION. NOP, WRREG, RDREG, PUTB, GETB (43_control.md R90 to R94). -/

namespace Sys2Proof.Machine

/-- NOP (R90). -/
def execNop (s : State) : Host.Outcome State Fault Refusal := answer .nop s (.ok (s, 0))

/-- WRREG of an address register: a value above BUF_SIZE is OutOfRange (R91). -/
def writeAddress (s : State) (r : Reg) (d : Word) : Cmd (State × Word) := do
  check (d.toNat ≤ s.params.bufSize) .outOfRange
  pure (s.setReg r d, 0)

/-- WRREG's pseudocode (R91). A read-only register is IllegalCommand; decode has refused it before (R49 d, log entry 9). -/
def wrreg (r : Reg) (d : Word) (s : State) : Cmd (State × Word) :=
  match r with
  | .cur => writeAddress s .cur d
  | .wend => writeAddress s .wend d
  | .oend => writeAddress s .oend d
  | .src => writeAddress s .src d
  | .ferr => .ok ((s.setReg .ferr 0).setReg .fpos 0, 0)
  | .val | .len | .soff | .slen | .hdr | .fpos => raise .illegalCommand

/-- WRREG (R91). -/
def execWrreg (r : Reg) (d : Word) (s : State) : Host.Outcome State Fault Refusal := answer .wrreg s (wrreg r d s)

/-- RDREG (R92). -/
def execRdreg (r : Reg) (s : State) : Host.Outcome State Fault Refusal := answer .rdreg s (.ok (s, s.reg r))

/-- PUTB's pseudocode (R93). -/
def putb (d : Word) (s : State) : Cmd (State × Word) := do
  check (d.toNat ≤ 255) .outOfRange
  emit s [d.extractLsb' 0 8]

/-- PUTB (R93). -/
def execPutb (d : Word) (s : State) : Host.Outcome State Fault Refusal := answer .putb s (putb d s)

/-- GETB's pseudocode (R94). -/
def getb (s : State) : Cmd (State × Word) := do
  check (s.inWin 1) .truncated
  let b ← memByte s s.cur.toNat
  pure ((s.setReg .val (b.zeroExtend 32)).advance 1, b.zeroExtend 32)

/-- GETB (R94). -/
def execGetb (s : State) : Host.Outcome State Fault Refusal := answer .getb s (getb s)

end Sys2Proof.Machine
end

