-- ==== Sys2Proof/Machine/Header.lean ====
section
/-! DEFINITION. HDEC, FDEC, FENC, FEXIT (42_header.md R84 to R87). -/

namespace Sys2Proof.Machine

/-- HDEC's pseudocode (R84). Expected type 15 is IllegalCommand; decode has refused it before (R49 f, log entry 9). -/
def hdec (e : Nibble) (s : State) : Cmd (State × Word) := do
  check (e ≠ 15) .illegalCommand
  let b ← headerByte s e
  pure ((s.setReg .hdr (b.zeroExtend 32)).advance 1, b.zeroExtend 32)

/-- HDEC (R84). -/
def execHdec (e : Nibble) (s : State) : Host.Outcome State Fault Refusal := answer .hdec s (hdec e s)

/-- The state after a successful FDEC of a frame with header byte `b`, remaining length `rl` and VarInt length `n` (R85). -/
def State.enterFrame (s : State) (b : Byte) (rl n : Nat) : State :=
  { s with
    hdr := b.zeroExtend 32
    val := word rl
    len := word (1 + n)
    oend := s.wend
    wend := word (s.cur.toNat + 1 + n + rl)
    cur := word (s.cur.toNat + 1 + n) }

/-- FDEC's pseudocode (R85). -/
def fdec (e : Nibble) (s : State) : Cmd (State × Word) := do
  check (e ≠ 15) .illegalCommand
  let b ← headerByte s e
  let (rl, n) ← varDec s (s.cur.toNat + 1) s.wend.toNat
  check (¬ (zeroLengthKind (hdrType b) = true ∧ rl ≠ 0)) .malformed
  check (s.cur.toNat + 1 + n + rl ≤ s.wend.toNat) .truncated
  pure (s.enterFrame b rl n, word rl)

/-- FDEC (R85). -/
def execFdec (e : Nibble) (s : State) : Host.Outcome State Fault Refusal := answer .fdec s (fdec e s)

/-- FENC's pseudocode (R86). Types 0 and 15 are IllegalCommand; decode has refused them before (R49 e, log entry 9). -/
def fenc (t flags : Nibble) (rl : BitVec 28) (s : State) : Cmd (State × Word) := do
  check (t ≠ 0 ∧ t ≠ 15) .illegalCommand
  check (¬ (zeroLengthKind t = true ∧ rl ≠ 0)) .outOfRange
  check (badQos t flags = false) .outOfRange
  emit s (hdrByte t flags :: encBytes rl.toNat)

/-- FENC (R86). -/
def execFenc (t flags : Nibble) (rl : BitVec 28) (s : State) : Host.Outcome State Fault Refusal :=
  answer .fenc s (fenc t flags rl s)

/-- The state after FEXIT (R87): CUR <- END; END <- OEND; LEN <- 0. -/
def State.leaveFrame (s : State) : State := { s with cur := s.wend, wend := s.oend, len := 0 }

/-- FEXIT (R87). -/
def execFexit (s : State) : Host.Outcome State Fault Refusal := answer .fexit s (.ok (s.leaveFrame, s.wend))

end Sys2Proof.Machine
end

