-- ==== Sys2Proof/Machine/StringFramer.lean ====
section
/-! DEFINITION. SENC, SDEC, WR16, RD16 (41_string.md R71 to R74). -/

namespace Sys2Proof.Machine

/-- SENC's pseudocode (R71): the source is bounded by BUF_SIZE, not by the window, and is read before anything is written. -/
def senc (len : Word) (s : State) : Cmd (State × Word) := do
  check (len.toNat ≤ 65535) .outOfRange
  check (s.src.toNat + len.toNat ≤ s.params.bufSize) .outOfRange
  check (s.inWin (2 + len.toNat)) .bufferTooShort
  let body ← memRead s s.src.toNat len.toNat
  emit s (strBytes body)

/-- SENC (R71). -/
def execSenc (len : Word) (s : State) : Host.Outcome State Fault Refusal := answer .senc s (senc len s)

/-- SDEC's pseudocode (R72). -/
def sdec (s : State) : Cmd (State × Word) := do
  check (s.inWin 2) .truncated
  let len ← memBe16 s s.cur.toNat
  check (s.inWin (2 + len)) .truncated
  pure (((s.setReg .soff (word (s.cur.toNat + 2))).setReg .slen (word len)).advance (2 + len), word len)

/-- SDEC (R72). -/
def execSdec (s : State) : Host.Outcome State Fault Refusal := answer .sdec s (sdec s)

/-- WR16's pseudocode (R73). -/
def wr16 (w : Word) (s : State) : Cmd (State × Word) := do
  check (w.toNat ≤ 65535) .outOfRange
  emit s (be16Bytes w.toNat)

/-- WR16 (R73). -/
def execWr16 (w : Word) (s : State) : Host.Outcome State Fault Refusal := answer .wr16 s (wr16 w s)

/-- RD16's pseudocode (R74). -/
def rd16 (s : State) : Cmd (State × Word) := do
  check (s.inWin 2) .truncated
  let v ← memBe16 s s.cur.toNat
  pure ((s.setReg .val (word v)).advance 2, word v)

/-- RD16 (R74). -/
def execRd16 (s : State) : Host.Outcome State Fault Refusal := answer .rd16 s (rd16 s)

end Sys2Proof.Machine
end

