-- ==== Sys2Proof/Machine/VarInt.lean ====
section
/-! DEFINITION. VENC and VDEC (40_varint.md R62, R63). -/

namespace Sys2Proof.Machine

/-- VENC's pseudocode (R62). -/
def venc (v : Word) (s : State) : Cmd (State × Word) := do
  check (v.toNat ≤ maxVarInt) .outOfRange
  emit s (encBytes v.toNat)

/-- VENC (R62). -/
def execVenc (v : Word) (s : State) : Host.Outcome State Fault Refusal := answer .venc s (venc v s)

/-- VDEC's pseudocode (R63). -/
def vdec (s : State) : Cmd (State × Word) := do
  let (value, n) ← varDec s s.cur.toNat s.wend.toNat
  pure ((s.setReg .val (word value)).advance n, word value)

/-- VDEC (R63). -/
def execVdec (s : State) : Host.Outcome State Fault Refusal := answer .vdec s (vdec s)

end Sys2Proof.Machine
end

