-- ==== Sys2Proof/Machine/Dispatch.lean ====
section
/-! DEFINITION. Which meaning runs a command (30_encoding.md R47, R52). -/

namespace Sys2Proof.Machine

def exec (i : Instr) (s : State) : Host.Outcome State Fault Refusal :=
  match i with
  | .nop => Sys2Proof.Machine.execNop s
  | .wrreg r d => Sys2Proof.Machine.execWrreg r d s
  | .rdreg r => Sys2Proof.Machine.execRdreg r s
  | .venc v => Sys2Proof.Machine.execVenc v s
  | .vdec => Sys2Proof.Machine.execVdec s
  | .senc len => Sys2Proof.Machine.execSenc len s
  | .sdec => Sys2Proof.Machine.execSdec s
  | .wr16 w => Sys2Proof.Machine.execWr16 w s
  | .rd16 => Sys2Proof.Machine.execRd16 s
  | .fenc t flags rl => Sys2Proof.Machine.execFenc t flags rl s
  | .fdec e => Sys2Proof.Machine.execFdec e s
  | .hdec e => Sys2Proof.Machine.execHdec e s
  | .fexit => Sys2Proof.Machine.execFexit s
  | .putb d => Sys2Proof.Machine.execPutb d s
  | .getb => Sys2Proof.Machine.execGetb s

end Sys2Proof.Machine
end

