-- ==== Sys2Proof/Machine/Step.lean ====
section
/-! DEFINITION. One step of the machine: the host's next action (30_encoding.md R52; 60_exceptions.md R110; 70_reset_and_hazards.md R120). -/

namespace Sys2Proof.Machine

/-- execute(CMD, DATA) (R52): an illegal request fails with IllegalCommand before anything is read (R49, R50); any other
runs its command. -/
def execute (cmd data : Word) (s : State) : Host.Outcome State Fault Refusal :=
  match decode cmd data with
  | .ok i => exec i s
  | .error _ => .next (s.fail .illegalCommand (opcOf cmd))

/-- One step: the host's next request is executed, or its reset happens; with nothing from the host the block is idle
and keeps all its state (R110, log entry 7). -/
def step (s : State) : Host.Outcome State Fault Refusal :=
  match s.host with
  | [] => .next s
  | .issue cmd data :: rest => execute cmd data (s.withHost rest)
  | .reset :: rest => .next (s.afterReset rest)

/-- `s` with a request put before everything else the host will do, so that the next step executes it (log entries 5, 15). -/
def State.withFetchWord (s : State) (nbits w : Nat) : State :=
  s.withHost (.issue (requestOfBits nbits w).1 (requestOfBits nbits w).2 :: s.host)

end Sys2Proof.Machine
end

