-- ==== Sys2Proof/Machine/Assembly.lean ====
section
/-! DEFINITION. The assembler syntax (30_encoding.md R53), the pseudo-commands (R55) and the written form CMD/DATA of a request. They say how a program of the host (R54) is written; no command depends on them. Choices R53 leaves open: log entry 14. -/

namespace Sys2Proof.Machine

/-! ### Names -/

/-- The mnemonics of R47. -/
def opcodeName : Opcode → String
  | .nop => "NOP"
  | .wrreg => "WRREG"
  | .rdreg => "RDREG"
  | .venc => "VENC"
  | .vdec => "VDEC"
  | .senc => "SENC"
  | .sdec => "SDEC"
  | .wr16 => "WR16"
  | .rd16 => "RD16"
  | .fenc => "FENC"
  | .fdec => "FDEC"
  | .hdec => "HDEC"
  | .fexit => "FEXIT"
  | .putb => "PUTB"
  | .getb => "GETB"

/-- The register names (10_state.md R14). -/
def regName : Reg → String
  | .cur => "CUR"
  | .wend => "END"
  | .oend => "OEND"
  | .src => "SRC"
  | .val => "VAL"
  | .len => "LEN"
  | .soff => "SOFF"
  | .slen => "SLEN"
  | .hdr => "HDR"
  | .ferr => "FERR"
  | .fpos => "FPOS"

/-- The kind names (42_header.md R81). -/
def kindName : PacketKind → String
  | .connect => "CONNECT"
  | .connack => "CONNACK"
  | .publish => "PUBLISH"
  | .puback => "PUBACK"
  | .pubrec => "PUBREC"
  | .pubrel => "PUBREL"
  | .pubcomp => "PUBCOMP"
  | .subscribe => "SUBSCRIBE"
  | .suback => "SUBACK"
  | .unsubscribe => "UNSUBSCRIBE"
  | .unsuback => "UNSUBACK"
  | .pingreq => "PINGREQ"
  | .pingresp => "PINGRESP"
  | .disconnect => "DISCONNECT"

/-! ### Operands -/

/-- The sixteen digits of the hex words of R53, in the order of their values, as the spec writes them. -/
def hexDigitChars : List Char := "0123456789ABCDEF".toList

/-- The value of a digit: its place among the sixteen. A letter digit may also be small (log entry 14). -/
def digitValue (c : Char) : Option Nat := hexDigitChars.idxOf? c.toUpper

/-- The number that digits in a base write, after those that wrote `acc`. -/
def readDigits (base : Nat) : List Char → Nat → Option Nat
  | [], acc => some acc
  | c :: cs, acc =>
    match digitValue c with
    | some d => if d < base then readDigits base cs (acc * base + d) else none
    | none => none

/-- A decimal or `0x` hexadecimal number (R53). -/
def readNumber (cs : List Char) : Option Nat :=
  match cs with
  | [] => none
  | '0' :: 'x' :: c :: ds => readDigits 16 (c :: ds) 0
  | c :: ds => readDigits 10 (c :: ds) 0

/-- A number below a bound. -/
def readBelow (bound : Nat) (cs : List Char) : Option Nat :=
  (readNumber cs).bind fun n => if n < bound then some n else none

/-- A DATA word. -/
def readWord (cs : List Char) : Option Word := (readBelow (2 ^ 32) cs).map (BitVec.ofNat 32)

/-- A register: its name, or `#n` with n = SEL (R53). -/
def readReg (cs : List Char) : Option Nibble :=
  match cs with
  | '#' :: ds => (readBelow 16 ds).map (BitVec.ofNat 4)
  | _ => (Reg.all.find? fun r => (regName r).toList == cs).map Reg.sel

/-- A kind name, or ANY (R53). -/
def readKind (cs : List Char) : Option Nibble :=
  if cs = "ANY".toList then some 0
  else (allKinds.find? fun k => (kindName k).toList == cs).map kindCode

/-- An expected packet type: a number 0..14, a kind name or ANY (R53). -/
def readExpected (cs : List Char) : Option Nibble :=
  (readKind cs).orElse fun _ => (readBelow 15 cs).map (BitVec.ofNat 4)

/-- FENC's packet type: any value of SEL, or a kind name (R53, log entry 14). -/
def readType (cs : List Char) : Option Nibble :=
  (readKind cs).orElse fun _ => (readBelow 16 cs).map (BitVec.ofNat 4)

/-! ### Lines -/

/-- The text before the first `stop` and, if there is one, the text after it. -/
def cutAt (stop : Char) : List Char → List Char × Option (List Char)
  | [] => ([], none)
  | c :: cs =>
    if c = stop then ([], some cs)
    else (c :: (cutAt stop cs).1, (cutAt stop cs).2)

/-- Cut at every comma. -/
def splitCommas : List Char → List (List Char)
  | [] => [[]]
  | c :: cs =>
    match splitCommas cs with
    | [] => [[c]]
    | x :: xs => if c = ',' then [] :: x :: xs else (c :: x) :: xs

/-- Without the spaces before and after. -/
def trim (cs : List Char) : List Char :=
  ((cs.dropWhile (· == ' ')).reverse.dropWhile (· == ' ')).reverse

/-- A line as its mnemonic and its operands (R53). -/
def readLine (line : List Char) : List Char × List (List Char) :=
  match cutAt ' ' (trim line) with
  | (m, none) => (m, [])
  | (m, some rest) => (m, (splitCommas rest).map trim)

/-- A request: the CMD and DATA words. -/
abbrev Request := Word × Word

/-- The request with this opcode, SEL and DATA. -/
def request (o : Opcode) (sel : Nibble) (data : Word) : Request := (cmdWord sel o.byte, data)

/-- A command without operands; DATA assembles as 0 (R53). -/
def plainLine (o : Opcode) (ops : List (List Char)) : Option Request :=
  match ops with
  | [] => some (request o 0 0)
  | _ => none

/-- A command whose one operand is DATA (R53). -/
def dataLine (o : Opcode) (ops : List (List Char)) : Option Request :=
  match ops with
  | [v] => (readWord v).map (request o 0)
  | _ => none

/-- `HDEC type`, `FDEC type` (R53). -/
def expectedLine (o : Opcode) (ops : List (List Char)) : Option Request :=
  match ops with
  | [t] => (readExpected t).map fun e => request o e 0
  | _ => none

/-- `WRREG reg, value` (R53). -/
def wrregLine (ops : List (List Char)) : Option Request :=
  match ops with
  | [r, v] => (readReg r).bind fun sel => (readWord v).map (request .wrreg sel)
  | _ => none

/-- `RDREG reg` (R53). -/
def rdregLine (ops : List (List Char)) : Option Request :=
  match ops with
  | [r] => (readReg r).map fun sel => request .rdreg sel 0
  | _ => none

/-- `FENC type, flags, rl`: SEL = type, DATA = (rl << 4) | flags (R53). -/
def fencLine (ops : List (List Char)) : Option Request :=
  match ops with
  | [t, f, n] =>
    (readType t).bind fun sel => (readBelow 16 f).bind fun flags => (readBelow (2 ^ 28) n).map fun rl =>
      request .fenc sel (fencData (BitVec.ofNat 4 flags) (BitVec.ofNat 28 rl))
  | _ => none

/-- The request a command's operands write (R53). -/
def commandLine (o : Opcode) (ops : List (List Char)) : Option Request :=
  match o with
  | .nop => plainLine .nop ops
  | .wrreg => wrregLine ops
  | .rdreg => rdregLine ops
  | .venc => dataLine .venc ops
  | .vdec => plainLine .vdec ops
  | .senc => dataLine .senc ops
  | .sdec => plainLine .sdec ops
  | .wr16 => dataLine .wr16 ops
  | .rd16 => plainLine .rd16 ops
  | .fenc => fencLine ops
  | .fdec => expectedLine .fdec ops
  | .hdec => expectedLine .hdec ops
  | .fexit => plainLine .fexit ops
  | .putb => dataLine .putb ops
  | .getb => plainLine .getb ops

/-! ### Pseudo-commands (R55) -/

/-- The pseudo-commands. -/
inductive Pseudo where
  | win (a b : Word)
  | clrerr
  | remain
  | puts (bytes : List Word)
  | ping
deriving DecidableEq, Repr

/-- The commands a pseudo-command stands for, each a step of its own (R55). -/
def Pseudo.expand : Pseudo → List Instr
  | .win a b => [.wrreg .cur a, .wrreg .wend b]
  | .clrerr => [.wrreg .ferr 0]
  | .remain => [.rdreg .wend, .rdreg .cur]
  | .puts bytes => bytes.map .putb
  | .ping => [.fenc 12 0 0]

/-- Every operand as a DATA word. -/
def readWords : List (List Char) → Option (List Word)
  | [] => some []
  | v :: vs => (readWord v).bind fun w => (readWords vs).map (w :: ·)

/-- The pseudo-command a line's mnemonic and operands write (R55). -/
def pseudoLine (m : List Char) (ops : List (List Char)) : Option Pseudo :=
  if m = "WIN".toList then
    match ops with
    | [a, b] => (readWord a).bind fun x => (readWord b).map (Pseudo.win x)
    | _ => none
  else if m = "CLRERR".toList then if ops = [] then some .clrerr else none
  else if m = "REMAIN".toList then if ops = [] then some .remain else none
  else if m = "PUTS".toList then if ops = [] then none else (readWords ops).map .puts
  else if m = "PING".toList then if ops = [] then some .ping else none
  else none

/-- The requests one line of a program writes (R53, R55). -/
def assembleLine (line : String) : Option (List Request) :=
  let (m, ops) := readLine line.toList
  match Opcode.all.find? fun o => (opcodeName o).toList == m with
  | some o => (commandLine o ops).map fun r => [r]
  | none => (pseudoLine m ops).map fun p => p.expand.map encode

/-- The requests a program writes, one line after another (R54). -/
def assemble : List String → Option (List Request)
  | [] => some []
  | line :: lines => (assembleLine line).bind fun rs => (assemble lines).map (rs ++ ·)

/-- A program as what the host does (R54). -/
def hostProgram (rs : List Request) : List HostAction := rs.map fun r => .issue r.1 r.2

/-! ### The written form CMD/DATA (R53) -/

/-- The digit that writes four bits. -/
def hexDigit (n : Nibble) : Char := hexDigitChars.getD n.toNat '0'

/-- The low `k` hexadecimal digits of a word, most significant first. -/
def hexDigits (w : Word) : Nat → List Char
  | 0 => []
  | k + 1 => hexDigit (w.extractLsb' (4 * k) 4) :: hexDigits w k

/-- A request written `CMD/DATA`, two 8-digit hex words (R53). -/
def requestText (r : Request) : List Char := hexDigits r.1 8 ++ '/' :: hexDigits r.2 8

end Sys2Proof.Machine
end

