-- ==== Sys2Proof/Safety.lean ====
section
/-! DEFINITION. What a good state is (10_state.md R19 to R27; 20_memory.md R31; 60_exceptions.md R100, R109), and the words the statements are written in: a command that fails, a command that writes bytes at the cursor, a VarInt in BUF, a header byte that is refused. They are written in plain numbers, not with the meanings' own functions, so that a statement says what the spec says. -/

namespace Sys2Proof.Machine

/-! ### The invariant -/

/-- CUR, END, OEND, SRC in [0, BUF_SIZE] and SOFF + SLEN <= BUF_SIZE (R27); FPOS is a value CUR had (R25). -/
abbrev State.BoundsInv (s : State) : Prop :=
  s.cur.toNat ≤ s.params.bufSize ∧ s.wend.toNat ≤ s.params.bufSize ∧ s.oend.toNat ≤ s.params.bufSize ∧
  s.src.toNat ≤ s.params.bufSize ∧ s.soff.toNat + s.slen.toNat ≤ s.params.bufSize ∧
  s.fpos.toNat ≤ s.params.bufSize

/-- The ranges of VAL (R19), LEN (R20), SLEN (R22) and HDR (R23), and the fields of FERR (R24): reserved bits 0, CODE a
code a command can fail with, and FERR and FPOS both 0 while no failure is recorded. -/
abbrev State.FieldsInv (s : State) : Prop :=
  s.val.toNat ≤ 268435455 ∧ s.len.toNat ≤ 65537 ∧ s.slen.toNat ≤ 65535 ∧ s.hdr.toNat ≤ 255 ∧
  (s.hdr.toNat = 0 ∨ (1 ≤ s.hdr.toNat / 16 ∧ s.hdr.toNat / 16 ≤ 14 ∧
    ¬ (s.hdr.toNat / 16 = 3 ∧ s.hdr.toNat / 2 % 4 = 3))) ∧
  s.ferr.toNat / 65536 = 0 ∧ s.ferr.toNat / 16 % 16 = 0 ∧ s.ferr.toNat % 16 ≤ 7 ∧ s.ferr.toNat % 16 ≠ 4 ∧
  (s.ferr.toNat % 16 = 0 → s.ferr = 0 ∧ s.fpos = 0)

/-- BUF in its canonical form, with nothing written at an address that does not exist (R31). -/
abbrev State.MemInv (s : State) : Prop := s.mem.wf = true ∧ ∀ c ∈ s.mem, c.1 < s.params.bufSize

/-- The last response, if there is one: never CapacityExceeded (R109), and RESULT 0 on a failure (R51). -/
abbrev State.PortInv (s : State) : Prop :=
  ∀ r ∈ s.response, r.status ≠ .capacityExceeded ∧ (r.status ≠ .ok → r.result = 0)

/-- The invariant of the block. -/
abbrev State.Inv (s : State) : Prop := s.params.Legal ∧ s.BoundsInv ∧ s.FieldsInv ∧ s.MemInv ∧ s.PortInv

/-! ### Failing (R101, R102) -/

/-- `s` after a command whose CMD[7:0] was `opc` failed in it with status `c`: FERR and FPOS recorded if FERR.CODE was 0,
the response (c, 0), and nothing else changed. -/
def State.afterFailure (s : State) (c : Status) (opc : Byte) : State :=
  { s with
    ferr := if s.ferr.toNat % 16 = 0 then word (opc.toNat * 256 + c.code.toNat) else s.ferr
    fpos := if s.ferr.toNat % 16 = 0 then s.cur else s.fpos
    response := some ⟨c, 0⟩ }

/-- The command fails with status `c` in state `s`. -/
def FailsWith (i : Instr) (s : State) (c : Status) : Prop := exec i s = .next (s.afterFailure c i.opcode.byte)

/-! ### Illegal requests (R49) -/

/-- The request's CMD word is illegal, by the clauses (a) to (f) of R49. -/
def RequestIllegal (cmd : Word) : Prop :=
  let opc := cmd.toNat % 256
  let sel := cmd.toNat / 256 % 16
  opc ∉ [0x00, 0x01, 0x02, 0x10, 0x11, 0x20, 0x21, 0x22, 0x23, 0x30, 0x31, 0x32, 0x33, 0x40, 0x41] ∨
  cmd.toNat / 4096 ≠ 0 ∨
  (sel ≠ 0 ∧ opc ∈ [0x00, 0x10, 0x11, 0x20, 0x21, 0x22, 0x23, 0x33, 0x40, 0x41]) ∨
  ((opc = 0x01 ∨ opc = 0x02) ∧ 11 ≤ sel ∨ opc = 0x01 ∧ sel ∈ [4, 5, 6, 7, 8, 10]) ∨
  (opc = 0x30 ∧ (sel = 0 ∨ sel = 15)) ∨
  ((opc = 0x31 ∨ opc = 0x32) ∧ sel = 15)

/-- A request with CMD word `cmd` fails with IllegalCommand, whatever its DATA and whatever the state. -/
def AlwaysIllegal (cmd : Word) : Prop :=
  ∀ d (s : State),
    execute cmd d s = .next (s.afterFailure .illegalCommand (BitVec.ofNat 8 (cmd.toNat % 256)))

/-- The CMD word `cmd` is, with any DATA `d`, the command `i d`, and every other CMD word with the same OPC is illegal:
the encoding of a command that does not use SEL. -/
def OnlyWord (cmd : Word) (i : Word → Instr) : Prop :=
  (∀ d, decode cmd d = .ok (i d)) ∧ ∀ c, c.toNat % 256 = cmd.toNat % 256 → c ≠ cmd → AlwaysIllegal c

/-! ### Succeeding -/

/-- The command succeeds by writing the bytes `bs` at the cursor: they stand at CUR, CUR+1, ...; every other byte is as
before; CUR moves past them; LEN and RESULT are their number; nothing else changes. -/
def WritesAtCursor (i : Instr) (s : State) (bs : List Byte) : Prop :=
  ∃ t : State, exec i s = .next t ∧
    t = { s with
      cur := word (s.cur.toNat + bs.length), len := word bs.length, mem := t.mem
      response := some ⟨.ok, word bs.length⟩ } ∧
    (∀ k, (h : k < bs.length) → t.byteAt (s.cur.toNat + k) = bs[k]) ∧
    ∀ a, a < s.cur.toNat ∨ s.cur.toNat + bs.length ≤ a → t.byteAt a = s.byteAt a

/-- The commands that move bytes at the cursor (R38): all but NOP, WRREG, RDREG and FEXIT. -/
def movesBytes : Instr → Bool
  | .venc _ | .vdec | .senc _ | .sdec | .wr16 _ | .rd16 | .fenc _ _ _ | .fdec _ | .hdec _ | .putb _ | .getb => true
  | .nop | .wrreg _ _ | .rdreg _ | .fexit => false

/-- The commands that write no byte of BUF (R38). -/
def writesNothing : Instr → Bool
  | .nop | .wrreg _ _ | .rdreg _ | .vdec | .sdec | .rd16 | .fdec _ | .hdec _ | .fexit | .getb => true
  | .venc _ | .senc _ | .wr16 _ | .fenc _ _ _ | .putb _ => false

/-- The commands that read bytes at the cursor (R38). -/
def readsAtCursor : Instr → Bool
  | .vdec | .sdec | .rd16 | .fdec _ | .hdec _ | .getb => true
  | .nop | .wrreg _ _ | .rdreg _ | .venc _ | .senc _ | .wr16 _ | .fenc _ _ _ | .fexit | .putb _ => false

/-! ### VarInts as bytes (R60, R61) -/

/-- `bs` is the VarInt encoding of `v` (R60): its length by the four ranges, 7 bits a byte, least significant first, and
the continuation bit (128) in every byte but the last. -/
def IsVarInt (v : Nat) (bs : List Byte) : Prop :=
  bs.length = (if v ≤ 127 then 1 else if v ≤ 16383 then 2 else if v ≤ 2097151 then 3 else 4) ∧
  ∀ k, (h : k < bs.length) → bs[k].toNat = v / 128 ^ k % 128 + if k + 1 < bs.length then 128 else 0

/-- The VarInt at address `p` ends in its byte `k`: the bytes before it have bit 7 set and it has not. -/
def VarIntEndsAt (s : State) (p k : Nat) : Prop :=
  (∀ j, j < k → 128 ≤ (s.byteAt (p + j)).toNat) ∧ (s.byteAt (p + k)).toNat < 128

/-- The value of the `n`-byte VarInt at address `p`: the sum of its 7-bit groups. -/
def varIntValue (s : State) (p n : Nat) : Nat :=
  ((List.range n).map fun j => (s.byteAt (p + j)).toNat % 128 * 128 ^ j).sum

/-- With P_STRICT_CANONICAL, a VarInt of more than one byte that ends in 0x00 is refused (R61). -/
def NotCanonical (s : State) (p k : Nat) : Prop := s.params.strict = true ∧ 0 < k ∧ (s.byteAt (p + k)).toNat = 0

/-- Byte by byte the decoder finds no end at address `p`: before the window's end `e` every byte it may look at has bit 7
set, and there are fewer than four of them (Truncated, R61). -/
def VarIntRunsOut (s : State) (p e : Nat) : Prop := e < p + 4 ∧ ∀ j, p + j < e → 128 ≤ (s.byteAt (p + j)).toNat

/-- Four bytes with bit 7 set inside the window (Malformed, R61). -/
def VarIntTooLong (s : State) (p e : Nat) : Prop := p + 4 ≤ e ∧ ∀ j, j < 4 → 128 ≤ (s.byteAt (p + j)).toNat

/-! ### The header byte (R80 to R84, R103) -/

/-- Why HDEC and FDEC with expected type `e` refuse the header byte at the cursor, in the order of R103: IllegalCommand,
Truncated, WrongPacketType, Malformed (reserved type), Malformed (PUBLISH with QoS 3); none if they accept it. -/
def headerFailure (e : Nibble) (s : State) : Option Status :=
  let b := (s.byteAt s.cur.toNat).toNat
  if e.toNat = 15 then some .illegalCommand
  else if s.wend.toNat < s.cur.toNat + 1 then some .truncated
  else if e.toNat ≠ 0 ∧ b / 16 ≠ e.toNat then some .wrongPacketType
  else if b / 16 = 0 ∨ b / 16 = 15 then some .malformed
  else if b / 16 = 3 ∧ b / 2 % 4 = 3 then some .malformed
  else none

end Sys2Proof.Machine
end

