-- ==== Sys2Proof/Certificates/Slice0/Obligations.lean ====
section
/-! DEFINITION. The statements for the provers, from the numbered rules of spec/. -/

open Sys2Proof Sys2Proof.Machine

/-! ### Encoding (30_encoding.md) -/

/-- Every well-formed command is what its own encoding decodes to, operands and all (R45 to R48). -/
def Obligations.DecodeOfEncodeIsTheCommand : Prop :=
  ∀ i : Instr, i.wf = true → decode (encode i).1 (encode i).2 = .ok i

/-- A request that decodes is the encoding of the well-formed command it decodes to, but for a DATA word the command
ignores (R45 to R48). -/
def Obligations.EncodeOfDecodeIsTheRequest : Prop :=
  ∀ cmd data i, decode cmd data = .ok i →
    i.wf = true ∧ (encode i).1 = cmd ∧
    ((encode i).2 = data ∨
      (encode i).2 = 0 ∧ i.opcode ∈ [Opcode.nop, .rdreg, .vdec, .sdec, .rd16, .hdec, .fdec, .fexit, .getb])

/-- The illegal requests are exactly those of R49 (a) to (f), and an illegal request, whatever its DATA and whatever the
state, does nothing but the first-error capture and answers (IllegalCommand, 0) (R49, R50). -/
def Obligations.IllegalRequestsOnlyFail : Prop :=
  ∀ cmd data, ((∃ r, decode cmd data = .error r) ↔ RequestIllegal cmd) ∧
    ∀ (s : State) rest, s.host = .issue cmd data :: rest → RequestIllegal cmd →
      step s = .next ({ s with host := rest }.afterFailure .illegalCommand (BitVec.ofNat 8 (cmd.toNat % 256)))

/-- A DATA word that the opcode ignores has no effect: the step is the same with any other (R46). -/
def Obligations.IgnoredDataHasNoEffect : Prop :=
  ∀ (cmd d d' : Word) (s : State) rest,
    cmd.toNat % 256 ∈ [0x00, 0x02, 0x11, 0x21, 0x23, 0x32, 0x31, 0x33, 0x41] →
    step { s with host := .issue cmd d :: rest } = step { s with host := .issue cmd d' :: rest }

/-- Words written out from R45 to R48, R53 and the command rules decode to the commands they stand for. -/
def Obligations.WrittenWordsDecode : Prop :=
  decode 0x00000000 0x12345678 = .ok .nop ∧
  decode 0x00000101 0x00000010 = .ok (.wrreg .wend 16) ∧
  decode 0x00000902 0x00000000 = .ok (.rdreg .ferr) ∧
  decode 0x00000010 0x00000141 = .ok (.venc 321) ∧
  decode 0x00000020 0x00000003 = .ok (.senc 3) ∧
  decode 0x00000022 0x0000002A = .ok (.wr16 42) ∧
  decode 0x00000330 0x000000A3 = .ok (.fenc 3 3 10) ∧
  decode 0x00000E31 0x00000000 = .ok (.fdec 14) ∧
  decode 0x00000F32 0x00000000 = .error .reservedExpectedType

/-! ### The machine between commands -/

/-- When the host's next request decodes to a command, the step is the command's meaning in the state with the request
taken from the port, and nothing else (R52). -/
def Obligations.StepRunsTheDecodedCommand : Prop :=
  ∀ (s : State) cmd data rest i, s.host = .issue cmd data :: rest → decode cmd data = .ok i →
    step s = exec i { s with host := rest }

/-- With nothing from the host the block is idle and keeps all its state (R110; log entry 7). -/
def Obligations.IdleBlockKeepsItsState : Prop := ∀ s : State, s.host = [] → step s = .next s

/-- A reset between commands leaves every register 0 and no byte of BUF written by a command; the parameters stay. That
the response is none and that BUF is drawn anew is the model's choice (R120, R121; log entries 3, 6, 8). -/
def Obligations.ResetActionClearsTheBlock : Prop :=
  ∀ (s : State) rest, s.host = .reset :: rest →
    step s = .next
      { params := s.params, cur := 0, wend := 0, oend := 0, src := 0, val := 0, len := 0, soff := 0, slen := 0
        hdr := 0, ferr := 0, fpos := 0, mem := [], host := rest, response := none, draw := s.draw + 1 }

/-- Reset leaves every register 0, and each byte of BUF the free value drawn for it, whatever the parameters; State.reset
is such a state (R120, R31). -/
def Obligations.ResetStateHasZeroRegisters : Prop :=
  (∀ p d h, (∀ r, (State.resetWith p d h).reg r = 0) ∧ (State.resetWith p d h).params = p ∧
    ∀ a, (State.resetWith p d h).byteAt a = Config.resetByte d a) ∧
  ∃ p d h, p.Legal ∧ State.reset = State.resetWith p d h

/-- The invariant holds after reset, for every legal instance and every host. -/
def Obligations.ResetStateMeetsTheInvariant : Prop :=
  (∀ (p : Params) d h, p.Legal → (State.resetWith p d h).Inv) ∧ State.reset.Inv

/-- Every step keeps the invariant: the bounds of R27, the ranges of R19 to R24, the form of BUF, and the response.
That HDR never holds a PUBLISH byte with QoS 3 rests on log entry 12. -/
def Obligations.EveryStepKeepsTheInvariant : Prop :=
  ∀ s t : State, s.Inv → step s = .next t → t.Inv

/-- From a state that meets the invariant every run goes on for ever, whatever the host does: no step faults, none is
refused, no command reaches a byte outside BUF (R32, R27). -/
def Obligations.RunsNeverStop : Prop :=
  ∀ s : State, s.Inv → ∀ k, ∃ t : State, Sys2Proof.core.run k s = .next t ∧ t.Inv

/-- A command faults only where END is above BUF_SIZE, which R27 rules out, and is never refused (R32; log entry 10). -/
def Obligations.FaultsNeedAnIllegalWindow : Prop :=
  ∀ i (s : State), (∀ f, exec i s = .fault f → s.params.bufSize < s.wend.toNat) ∧ ∀ r, exec i s ≠ .refused r

/-! ### Failing (60_exceptions.md) -/

/-- Every request is answered; a failing one changes no register and no byte but by the capture, and its response is
(code, 0) (R101, R51). -/
def Obligations.FailureChangesOnlyTheCapture : Prop :=
  ∀ cmd data (s t : State), execute cmd data s = .next t →
    ∃ c r, t.response = some ⟨c, r⟩ ∧
      (c ≠ .ok → r = 0 ∧
        t = { s with ferr := t.ferr, fpos := t.fpos, response := t.response } ∧ ∀ a, t.byteAt a = s.byteAt a)

/-- The first-error capture: on a failure while FERR.CODE is 0, FERR takes (opc << 8) | code and FPOS takes CUR; on a
failure while it is not 0 both stay; a success leaves both, but for WRREG FERR, which clears both, as reset does (R102). -/
def Obligations.CaptureKeepsTheFirstError : Prop :=
  (∀ (s : State) rest, s.host = .reset :: rest → ∃ t : State, step s = .next t ∧ t.ferr = 0 ∧ t.fpos = 0) ∧
  ∀ cmd data (s t : State) c r, execute cmd data s = .next t → t.response = some ⟨c, r⟩ →
    (c ≠ .ok → s.ferr.toNat % 16 = 0 →
      t.ferr.toNat = cmd.toNat % 256 * 256 + c.code.toNat ∧ t.fpos = s.cur) ∧
    (c ≠ .ok → s.ferr.toNat % 16 ≠ 0 → t.ferr = s.ferr ∧ t.fpos = s.fpos) ∧
    (c = .ok → cmd ≠ 0x00000901 → t.ferr = s.ferr ∧ t.fpos = s.fpos) ∧
    (cmd = 0x00000901 → c = .ok ∧ t.ferr = 0 ∧ t.fpos = 0)

/-- A command that fails is idempotent: issued again it fails the same way and changes nothing (R39). -/
def Obligations.FailureIsIdempotent : Prop :=
  ∀ i (s t : State) c r, exec i s = .next t → t.response = some ⟨c, r⟩ → c ≠ .ok → exec i t = .next t

/-- CapacityExceeded is never produced (R109). -/
def Obligations.CapacityExceededIsNeverProduced : Prop :=
  ∀ cmd data (s t : State) r, execute cmd data s = .next t → t.response ≠ some ⟨.capacityExceeded, r⟩

/-- The numbers of the status codes, and which commands can raise each (R100). -/
def Obligations.StatusCodesAndWhoRaisesThem : Prop :=
  [Status.ok, .truncated, .malformed, .wrongPacketType, .capacityExceeded, .bufferTooShort, .outOfRange,
    .illegalCommand].map (fun c => c.code.toNat) = [0, 1, 2, 3, 4, 5, 6, 7] ∧
  ∀ i (s t : State) c r, i.wf = true → exec i s = .next t → t.response = some ⟨c, r⟩ →
    (c = .truncated → i.opcode ∈ [Opcode.vdec, .sdec, .rd16, .hdec, .fdec, .getb]) ∧
    (c = .malformed → i.opcode ∈ [Opcode.vdec, .hdec, .fdec]) ∧
    (c = .wrongPacketType → i.opcode ∈ [Opcode.hdec, .fdec]) ∧
    c ≠ .capacityExceeded ∧
    (c = .bufferTooShort → i.opcode ∈ [Opcode.venc, .senc, .wr16, .fenc, .putb]) ∧
    (c = .outOfRange → i.opcode ∈ [Opcode.venc, .senc, .wr16, .fenc, .putb, .wrreg]) ∧
    c ≠ .illegalCommand

/-! ### Control and raw bytes (43_control.md) -/

/-- NOP does nothing and answers (OK, 0), with any DATA; every other word with its opcode is illegal (R90). -/
def Obligations.NopDoesNothing : Prop :=
  OnlyWord 0x00000000 (fun _ => .nop) ∧ ∀ s : State, exec .nop s = .next { s with response := some ⟨.ok, 0⟩ }

/-- WRREG writes CUR, END, OEND or SRC with a value up to BUF_SIZE, fails with OutOfRange above it, clears FERR and FPOS
when it names FERR, and is illegal for every other register index (R91). On a term that names a read-only register, which
no request decodes to, it fails with IllegalCommand as R91's pseudocode does (log entry 9). -/
def Obligations.WrregWritesOrClears : Prop :=
  (∀ d, decode 0x00000001 d = .ok (.wrreg .cur d) ∧ decode 0x00000101 d = .ok (.wrreg .wend d) ∧
    decode 0x00000201 d = .ok (.wrreg .oend d) ∧ decode 0x00000301 d = .ok (.wrreg .src d) ∧
    decode 0x00000901 d = .ok (.wrreg .ferr d)) ∧
  (∀ cmd : Word, cmd.toNat % 256 = 0x01 → cmd.toNat ∉ [0x001, 0x101, 0x201, 0x301, 0x901] → AlwaysIllegal cmd) ∧
  ∀ (s : State) d,
    (d.toNat ≤ s.params.bufSize →
      exec (.wrreg .cur d) s = .next { s with cur := d, response := some ⟨.ok, 0⟩ } ∧
      exec (.wrreg .wend d) s = .next { s with wend := d, response := some ⟨.ok, 0⟩ } ∧
      exec (.wrreg .oend d) s = .next { s with oend := d, response := some ⟨.ok, 0⟩ } ∧
      exec (.wrreg .src d) s = .next { s with src := d, response := some ⟨.ok, 0⟩ }) ∧
    (s.params.bufSize < d.toNat → ∀ r ∈ [Reg.cur, .wend, .oend, .src], FailsWith (.wrreg r d) s .outOfRange) ∧
    exec (.wrreg .ferr d) s = .next { s with ferr := 0, fpos := 0, response := some ⟨.ok, 0⟩ } ∧
    ∀ r, r.writable = false → FailsWith (.wrreg r d) s .illegalCommand

/-- RDREG answers the register's value and changes nothing; indices 11 to 15 are illegal (R92). -/
def Obligations.RdregReadsEveryRegister : Prop :=
  (∀ (n : Nat) d, n ≤ 10 → decode (BitVec.ofNat 32 (n * 256 + 2)) d =
      .ok (.rdreg ([Reg.cur, .wend, .oend, .src, .val, .len, .soff, .slen, .hdr, .ferr, .fpos].getD n .cur))) ∧
  (∀ cmd : Word, cmd.toNat % 256 = 0x02 → 10 < cmd.toNat / 256 → AlwaysIllegal cmd) ∧
  ∀ s : State,
    exec (.rdreg .cur) s = .next { s with response := some ⟨.ok, s.cur⟩ } ∧
    exec (.rdreg .wend) s = .next { s with response := some ⟨.ok, s.wend⟩ } ∧
    exec (.rdreg .oend) s = .next { s with response := some ⟨.ok, s.oend⟩ } ∧
    exec (.rdreg .src) s = .next { s with response := some ⟨.ok, s.src⟩ } ∧
    exec (.rdreg .val) s = .next { s with response := some ⟨.ok, s.val⟩ } ∧
    exec (.rdreg .len) s = .next { s with response := some ⟨.ok, s.len⟩ } ∧
    exec (.rdreg .soff) s = .next { s with response := some ⟨.ok, s.soff⟩ } ∧
    exec (.rdreg .slen) s = .next { s with response := some ⟨.ok, s.slen⟩ } ∧
    exec (.rdreg .hdr) s = .next { s with response := some ⟨.ok, s.hdr⟩ } ∧
    exec (.rdreg .ferr) s = .next { s with response := some ⟨.ok, s.ferr⟩ } ∧
    exec (.rdreg .fpos) s = .next { s with response := some ⟨.ok, s.fpos⟩ }

/-- PUTB writes its byte at the cursor; above 255 OutOfRange, then BufferTooShort with no byte left in the window (R93). -/
def Obligations.PutbWritesOneByte : Prop :=
  OnlyWord 0x00000040 .putb ∧
  ∀ (s : State) d, s.wend.toNat ≤ s.params.bufSize →
    (255 < d.toNat → FailsWith (.putb d) s .outOfRange) ∧
    (d.toNat ≤ 255 → s.wend.toNat < s.cur.toNat + 1 → FailsWith (.putb d) s .bufferTooShort) ∧
    (d.toNat ≤ 255 → s.cur.toNat + 1 ≤ s.wend.toNat → WritesAtCursor (.putb d) s [BitVec.ofNat 8 d.toNat])

/-- GETB reads the byte at the cursor into VAL; Truncated with no byte left in the window (R94). -/
def Obligations.GetbReadsOneByte : Prop :=
  OnlyWord 0x00000041 (fun _ => .getb) ∧
  ∀ s : State, s.wend.toNat ≤ s.params.bufSize →
    (s.wend.toNat < s.cur.toNat + 1 → FailsWith .getb s .truncated) ∧
    (s.cur.toNat + 1 ≤ s.wend.toNat →
      exec .getb s = .next { s with
        val := word (s.byteAt s.cur.toNat).toNat, cur := word (s.cur.toNat + 1), len := 1
        response := some ⟨.ok, word (s.byteAt s.cur.toNat).toNat⟩ })

/-! ### VarInt (40_varint.md) -/

/-- The encoding function: the length by the ranges of the value, 7-bit groups least significant first, the continuation
bit in all but the last byte, and no redundant last byte 0x00 (R60). -/
def Obligations.EncBytesIsTheCanonicalVarInt : Prop :=
  ∀ v, v ≤ 268435455 → IsVarInt v (encBytes v) ∧
    (1 < (encBytes v).length → ((encBytes v).getD ((encBytes v).length - 1) 0) ≠ 0)

/-- VENC writes the VarInt of DATA at the cursor; above 268,435,455 OutOfRange, then BufferTooShort (R62). -/
def Obligations.VencWritesTheVarInt : Prop :=
  OnlyWord 0x00000010 .venc ∧
  ∀ (s : State) v, s.wend.toNat ≤ s.params.bufSize →
    (268435455 < v.toNat → FailsWith (.venc v) s .outOfRange) ∧
    (v.toNat ≤ 268435455 → ∃ bs, IsVarInt v.toNat bs ∧
      (s.wend.toNat < s.cur.toNat + bs.length → FailsWith (.venc v) s .bufferTooShort) ∧
      (s.cur.toNat + bs.length ≤ s.wend.toNat → WritesAtCursor (.venc v) s bs))

/-- The decoding function: a VarInt that ends in byte k of the window has the sum of its groups as value and k + 1 as
length, unless it is refused as non-canonical; four continuation bytes are Malformed; a window that ends before is
Truncated (R61). Nothing else of BUF matters. -/
def Obligations.VarDecDecidesByTheFirstBytes : Prop :=
  ∀ (s : State) p e, e ≤ s.params.bufSize →
    (∀ k, k < 4 → p + k < e → VarIntEndsAt s p k → ¬ NotCanonical s p k →
      varDec s p e = .ok (varIntValue s p (k + 1), k + 1)) ∧
    (∀ k, k < 4 → p + k < e → VarIntEndsAt s p k → NotCanonical s p k → varDec s p e = .error (.raised .malformed)) ∧
    (VarIntTooLong s p e → varDec s p e = .error (.raised .malformed)) ∧
    (VarIntRunsOut s p e → varDec s p e = .error (.raised .truncated))

/-- VDEC takes the VarInt at the cursor into VAL, its length into LEN, and moves past it; or Malformed, or Truncated (R63). -/
def Obligations.VdecReadsTheVarInt : Prop :=
  OnlyWord 0x00000011 (fun _ => .vdec) ∧
  ∀ s : State, s.wend.toNat ≤ s.params.bufSize →
    (∀ k, k < 4 → s.cur.toNat + k < s.wend.toNat → VarIntEndsAt s s.cur.toNat k → ¬ NotCanonical s s.cur.toNat k →
      exec .vdec s = .next { s with
        val := word (varIntValue s s.cur.toNat (k + 1)), len := word (k + 1), cur := word (s.cur.toNat + (k + 1))
        response := some ⟨.ok, word (varIntValue s s.cur.toNat (k + 1))⟩ }) ∧
    (∀ k, k < 4 → s.cur.toNat + k < s.wend.toNat → VarIntEndsAt s s.cur.toNat k → NotCanonical s s.cur.toNat k →
      FailsWith .vdec s .malformed) ∧
    (VarIntTooLong s s.cur.toNat s.wend.toNat → FailsWith .vdec s .malformed) ∧
    (VarIntRunsOut s s.cur.toNat s.wend.toNat → FailsWith .vdec s .truncated)

/-- What the decoder accepts is in range, inside the window, and no shorter than the canonical encoding (R61, R60). -/
def Obligations.CanonicalEncodingIsShortest : Prop :=
  ∀ (s : State) p e v n, varDec s p e = .ok (v, n) →
    v ≤ 268435455 ∧ 1 ≤ n ∧ n ≤ 4 ∧ p + n ≤ e ∧ (encBytes v).length ≤ n

/-- With P_STRICT_CANONICAL the decoder accepts only canonical encodings: the bytes it read are the encoding of the value
it answers (R6, R61, R60). -/
def Obligations.StrictDecoderAcceptsOnlyCanonical : Prop :=
  ∀ (s : State) p e v n, s.params.strict = true → varDec s p e = .ok (v, n) → s.bytesAt p n = encBytes v

/-- What the strict decoder accepts, the lenient one accepts with the same result (R6). -/
def Obligations.StrictVdecAcceptsNoMore : Prop :=
  ∀ (s t : State) r, exec .vdec s = .next t → t.response = some ⟨.ok, r⟩ →
    exec .vdec { s with params := { s.params with strict := false } } =
      .next { t with params := { s.params with strict := false } }

/-- VENC, then VDEC from the same cursor, gives the value and the length back, under either value of
P_STRICT_CANONICAL (R63, the source's property S1). -/
def Obligations.VdecInvertsVenc : Prop :=
  ∀ (s t : State) v r, exec (.venc v) s = .next t → t.response = some ⟨.ok, r⟩ →
    exec .vdec { t with cur := s.cur } = .next { t with val := v, response := some ⟨.ok, v⟩ }

/-! ### Strings and 2-byte fields (41_string.md) -/

/-- SENC writes the big-endian length and the source bytes as they stood before, overlap or not; OutOfRange above 65535 or
when the source passes BUF_SIZE, then BufferTooShort (R71). -/
def Obligations.SencWritesTheString : Prop :=
  OnlyWord 0x00000020 .senc ∧
  ∀ (s : State) len, s.wend.toNat ≤ s.params.bufSize →
    (65535 < len.toNat → FailsWith (.senc len) s .outOfRange) ∧
    (s.params.bufSize < s.src.toNat + len.toNat → FailsWith (.senc len) s .outOfRange) ∧
    (len.toNat ≤ 65535 → s.src.toNat + len.toNat ≤ s.params.bufSize →
      (s.wend.toNat < s.cur.toNat + (2 + len.toNat) → FailsWith (.senc len) s .bufferTooShort) ∧
      (s.cur.toNat + (2 + len.toNat) ≤ s.wend.toNat →
        WritesAtCursor (.senc len) s
          (BitVec.ofNat 8 (len.toNat / 256) :: BitVec.ofNat 8 (len.toNat % 256) ::
            (List.range len.toNat).map fun k => s.byteAt (s.src.toNat + k))))

/-- SDEC takes the view of the string at the cursor, and copies nothing; Truncated when the length or the body passes the
window (R72). -/
def Obligations.SdecTakesTheView : Prop :=
  OnlyWord 0x00000021 (fun _ => .sdec) ∧
  ∀ s : State, s.wend.toNat ≤ s.params.bufSize →
    let n := (s.byteAt s.cur.toNat).toNat * 256 + (s.byteAt (s.cur.toNat + 1)).toNat
    (s.wend.toNat < s.cur.toNat + 2 → FailsWith .sdec s .truncated) ∧
    (s.cur.toNat + 2 ≤ s.wend.toNat → s.wend.toNat < s.cur.toNat + (2 + n) → FailsWith .sdec s .truncated) ∧
    (s.cur.toNat + (2 + n) ≤ s.wend.toNat →
      exec .sdec s = .next { s with
        soff := word (s.cur.toNat + 2), slen := word n, cur := word (s.cur.toNat + (2 + n)), len := word (2 + n)
        response := some ⟨.ok, word n⟩ })

/-- SENC, then SDEC from the same cursor, gives a view of bytes equal to the source string (R72, the source's S4). -/
def Obligations.SdecInvertsSenc : Prop :=
  ∀ (s t : State) len r, exec (.senc len) s = .next t → t.response = some ⟨.ok, r⟩ →
    ∃ u : State, exec .sdec { t with cur := s.cur } = .next u ∧ u.response = some ⟨.ok, len⟩ ∧
      u.slen = len ∧ u.cur = t.cur ∧ u.len = t.len ∧ u.view = s.bytesAt s.src.toNat len.toNat

/-- WR16 writes DATA big-endian at the cursor; above 65535 OutOfRange, then BufferTooShort (R73). -/
def Obligations.Wr16WritesBigEndian : Prop :=
  OnlyWord 0x00000022 .wr16 ∧
  ∀ (s : State) w, s.wend.toNat ≤ s.params.bufSize →
    (65535 < w.toNat → FailsWith (.wr16 w) s .outOfRange) ∧
    (w.toNat ≤ 65535 → s.wend.toNat < s.cur.toNat + 2 → FailsWith (.wr16 w) s .bufferTooShort) ∧
    (w.toNat ≤ 65535 → s.cur.toNat + 2 ≤ s.wend.toNat →
      WritesAtCursor (.wr16 w) s [BitVec.ofNat 8 (w.toNat / 256), BitVec.ofNat 8 (w.toNat % 256)])

/-- RD16 reads the big-endian field at the cursor into VAL; Truncated with fewer than 2 bytes left (R74). -/
def Obligations.Rd16ReadsBigEndian : Prop :=
  OnlyWord 0x00000023 (fun _ => .rd16) ∧
  ∀ s : State, s.wend.toNat ≤ s.params.bufSize →
    let v := (s.byteAt s.cur.toNat).toNat * 256 + (s.byteAt (s.cur.toNat + 1)).toNat
    (s.wend.toNat < s.cur.toNat + 2 → FailsWith .rd16 s .truncated) ∧
    (s.cur.toNat + 2 ≤ s.wend.toNat →
      exec .rd16 s = .next { s with
        val := word v, cur := word (s.cur.toNat + 2), len := 2, response := some ⟨.ok, word v⟩ })

/-- What WR16 and PUTB write, RD16 and GETB at the same cursor read back (R73, R74, R93, R94). -/
def Obligations.FieldReadersInvertWriters : Prop :=
  ∀ (s t : State) d r, t.response = some ⟨.ok, r⟩ →
    (exec (.wr16 d) s = .next t →
      exec .rd16 { t with cur := s.cur } = .next { t with val := d, response := some ⟨.ok, d⟩ }) ∧
    (exec (.putb d) s = .next t →
      exec .getb { t with cur := s.cur } = .next { t with val := d, response := some ⟨.ok, d⟩ })

/-- A view names bytes of BUF, it is no copy: a PUTB inside it changes what it names, and SOFF and SLEN stay (R43). -/
def Obligations.ViewFollowsTheBuffer : Prop :=
  ∀ (s t : State) d r, exec (.putb d) s = .next t → t.response = some ⟨.ok, r⟩ →
    t.soff = s.soff ∧ t.slen = s.slen ∧
    t.view = if s.soff.toNat ≤ s.cur.toNat
      then s.view.set (s.cur.toNat - s.soff.toNat) (BitVec.ofNat 8 d.toNat) else s.view

/-! ### The packet header (42_header.md) -/

/-- The header byte is type * 16 + flags, and its fields are read back (R80). -/
def Obligations.HeaderByteIsTypeAndFlags : Prop :=
  (∀ t f : Nibble, (hdrByte t f).toNat = t.toNat * 16 + f.toNat ∧ hdrType (hdrByte t f) = t ∧
    hdrFlags (hdrByte t f) = f) ∧
  ∀ b : Byte, (hdrType b).toNat = b.toNat / 16 ∧ (hdrFlags b).toNat = b.toNat % 16

/-- The type codes of R81, valid exactly in 1..14, and the PUBLISH flag positions of R82 (general knowledge there: G1, log
entry 12). -/
def Obligations.PacketTypesAndFlags : Prop :=
  (List.range 16).map (fun n => kindOf (BitVec.ofNat 4 n)) =
    [none, some .connect, some .connack, some .publish, some .puback, some .pubrec, some .pubrel, some .pubcomp,
      some .subscribe, some .suback, some .unsubscribe, some .unsuback, some .pingreq, some .pingresp,
      some .disconnect, none] ∧
  (∀ t : Nibble, validType t = decide (1 ≤ t.toNat ∧ t.toNat ≤ 14)) ∧
  ∀ f : Nibble, flagRetain f = decide (f.toNat % 2 = 1) ∧ (flagQos f).toNat = f.toNat / 2 % 4 ∧
    flagDup f = decide (f.toNat / 8 = 1)

/-- HDEC takes the header byte at the cursor into HDR, or fails as the order of R103 says (R84). That a PUBLISH byte with
QoS 3 is refused rests on the flag positions the spec takes from general knowledge (R82, G1; log entry 12); that a term with
e = 15, which no request decodes to, fails with IllegalCommand is DEDUCED (log entry 9). -/
def Obligations.HdecReadsTheHeaderByte : Prop :=
  (∀ (e : Nibble) d, e.toNat ≤ 14 → decode (BitVec.ofNat 32 (e.toNat * 256 + 0x32)) d = .ok (.hdec e)) ∧
  (∀ cmd : Word, cmd.toNat % 256 = 0x32 → 14 < cmd.toNat / 256 → AlwaysIllegal cmd) ∧
  ∀ (s : State) e, s.wend.toNat ≤ s.params.bufSize →
    (∀ c, headerFailure e s = some c → FailsWith (.hdec e) s c) ∧
    (headerFailure e s = none →
      exec (.hdec e) s = .next { s with
        hdr := word (s.byteAt s.cur.toNat).toNat, cur := word (s.cur.toNat + 1), len := 1
        response := some ⟨.ok, word (s.byteAt s.cur.toNat).toNat⟩ })

/-- FDEC reads a header byte and a remaining length RL and narrows the window to the RL body bytes, saving END in OEND;
its failures come in the order of R103 (R85). That a PUBLISH byte with QoS 3 is refused rests on log entry 12 (R82, G1), that
a term with e = 15 fails with IllegalCommand on log entry 9, as for HDEC. -/
def Obligations.FdecReadsTheFrameHeader : Prop :=
  (∀ (e : Nibble) d, e.toNat ≤ 14 → decode (BitVec.ofNat 32 (e.toNat * 256 + 0x31)) d = .ok (.fdec e)) ∧
  (∀ cmd : Word, cmd.toNat % 256 = 0x31 → 14 < cmd.toNat / 256 → AlwaysIllegal cmd) ∧
  ∀ (s : State) e, s.wend.toNat ≤ s.params.bufSize →
    let b := (s.byteAt s.cur.toNat).toNat
    let p := s.cur.toNat + 1
    (∀ c, headerFailure e s = some c → FailsWith (.fdec e) s c) ∧
    (headerFailure e s = none →
      (VarIntRunsOut s p s.wend.toNat → FailsWith (.fdec e) s .truncated) ∧
      (VarIntTooLong s p s.wend.toNat → FailsWith (.fdec e) s .malformed) ∧
      ∀ k, k < 4 → p + k < s.wend.toNat → VarIntEndsAt s p k →
        let rl := varIntValue s p (k + 1)
        (NotCanonical s p k → FailsWith (.fdec e) s .malformed) ∧
        (¬ NotCanonical s p k → 12 ≤ b / 16 → rl ≠ 0 → FailsWith (.fdec e) s .malformed) ∧
        (¬ NotCanonical s p k → (12 ≤ b / 16 → rl = 0) → s.wend.toNat < p + (k + 1) + rl →
          FailsWith (.fdec e) s .truncated) ∧
        (¬ NotCanonical s p k → (12 ≤ b / 16 → rl = 0) → p + (k + 1) + rl ≤ s.wend.toNat →
          exec (.fdec e) s = .next { s with
            hdr := word b, val := word rl, len := word (1 + (k + 1)), oend := s.wend
            wend := word (p + (k + 1) + rl), cur := word (p + (k + 1)), response := some ⟨.ok, word rl⟩ }))

/-- FENC writes a header byte and a remaining length; OutOfRange for a non-zero length of PINGREQ, PINGRESP and DISCONNECT
and for PUBLISH with QoS 3, then BufferTooShort; types 0 and 15 are illegal (R86).
The PUBLISH clause rests on the flag positions the spec takes from general knowledge (R82, G1; log entry 12). -/
def Obligations.FencWritesTheFrameHeader : Prop :=
  (∀ (t : Nibble) d, 1 ≤ t.toNat → t.toNat ≤ 14 → decode (BitVec.ofNat 32 (t.toNat * 256 + 0x30)) d =
    .ok (.fenc t (BitVec.ofNat 4 (d.toNat % 16)) (BitVec.ofNat 28 (d.toNat / 16)))) ∧
  (∀ cmd : Word, cmd.toNat % 256 = 0x30 → cmd.toNat / 256 = 0 ∨ 14 < cmd.toNat / 256 → AlwaysIllegal cmd) ∧
  ∀ (s : State) t f rl, s.wend.toNat ≤ s.params.bufSize → 1 ≤ t.toNat → t.toNat ≤ 14 →
    (12 ≤ t.toNat → rl.toNat ≠ 0 → FailsWith (.fenc t f rl) s .outOfRange) ∧
    (t.toNat = 3 → f.toNat / 2 % 4 = 3 → FailsWith (.fenc t f rl) s .outOfRange) ∧
    ((12 ≤ t.toNat → rl.toNat = 0) → ¬ (t.toNat = 3 ∧ f.toNat / 2 % 4 = 3) → ∃ bs, IsVarInt rl.toNat bs ∧
      (s.wend.toNat < s.cur.toNat + (1 + bs.length) → FailsWith (.fenc t f rl) s .bufferTooShort) ∧
      (s.cur.toNat + (1 + bs.length) ≤ s.wend.toNat →
        WritesAtCursor (.fenc t f rl) s (BitVec.ofNat 8 (t.toNat * 16 + f.toNat) :: bs)))

/-- FEXIT moves the cursor to the frame's end and restores the outer window, and never fails (R87). -/
def Obligations.FexitRestoresTheWindow : Prop :=
  OnlyWord 0x00000033 (fun _ => .fexit) ∧
  ∀ s : State, exec .fexit s = .next { s with cur := s.wend, wend := s.oend, len := 0, response := some ⟨.ok, s.wend⟩ }

/-- FENC, then FDEC from the same cursor, expecting any type or the type written, gives the type, the flags and the
remaining length back and the window of the body, when the body fits (R85, R86). -/
def Obligations.FdecInvertsFenc : Prop :=
  ∀ (s u : State) t f rl e r, exec (.fenc t f rl) s = .next u → u.response = some ⟨.ok, r⟩ →
    e = 0 ∨ e = t → u.cur.toNat + rl.toNat ≤ s.wend.toNat →
    exec (.fdec e) { u with cur := s.cur } = .next { u with
      hdr := word (t.toNat * 16 + f.toNat), val := word rl.toNat, oend := s.wend
      wend := word (u.cur.toNat + rl.toNat), response := some ⟨.ok, word rl.toNat⟩ }

/-- A successful FDEC leaves the window exactly the body: RL bytes from the new cursor, inside the old window, whose end is
kept in OEND; FEXIT then goes to the body's end and restores the old window (R85, R87, R125). -/
def Obligations.FrameIsEnteredAndLeft : Prop :=
  ∀ (s t : State) e rl, exec (.fdec e) s = .next t → t.response = some ⟨.ok, rl⟩ →
    t.val = rl ∧ s.cur.toNat + 2 ≤ t.cur.toNat ∧ t.cur.toNat + rl.toNat = t.wend.toNat ∧
    t.wend.toNat ≤ s.wend.toNat ∧ t.oend = s.wend ∧
    ∃ u : State, exec .fexit t = .next u ∧ u.cur = t.wend ∧ u.wend = s.wend ∧ u.response = some ⟨.ok, t.wend⟩

/-! ### The whole machine -/

/-- MemWrite and MemRead: the bytes written are read back, every other byte is as before, and they are there exactly when
the range lies in BUF (R31, R33). -/
def Obligations.BufferReadsWhatWasWritten : Prop :=
  ∀ (s : State) a bs,
    (a + bs.length ≤ s.params.bufSize → ∃ t : State, memWrite s a bs = .ok t ∧ t = { s with mem := t.mem } ∧
      memRead t a bs.length = .ok bs ∧ ∀ x, x < a ∨ a + bs.length ≤ x → t.byteAt x = s.byteAt x) ∧
    (s.params.bufSize < a + bs.length →
      memWrite s a bs = .error (.fault (.outsideBuffer a)) ∧
      memRead s a bs.length = .error (.fault (.outsideBuffer a)))

/-- The commands that write no byte of BUF leave every byte as it was, whatever their outcome (R38). -/
def Obligations.ReadersLeaveTheBuffer : Prop :=
  ∀ i (s t : State), writesNothing i = true → exec i s = .next t → ∀ a, t.byteAt a = s.byteAt a

/-- No command changes a byte outside the window [CUR, END) (R16, R32, R33). -/
def Obligations.WritesStayInTheWindow : Prop :=
  ∀ i (s t : State) a, exec i s = .next t → a < s.cur.toNat ∨ s.wend.toNat ≤ a → t.byteAt a = s.byteAt a

/-- No decoder looks at a byte outside the window [CUR, END): with any other bytes there it does the same (R32, and the
source's rule on reading past the frame). -/
def Obligations.DecodersSeeOnlyTheWindow : Prop :=
  ∀ i (s t : State) m d, readsAtCursor i = true →
    (∀ a, s.cur.toNat ≤ a → a < s.wend.toNat → { s with mem := m, draw := d }.byteAt a = s.byteAt a) →
    exec i s = .next t → exec i { s with mem := m, draw := d } = .next { t with mem := m, draw := d }

/-- Every successful command that moves bytes at the cursor moves the cursor by LEN, at least one byte and not past END; it
answers LEN itself if it is an encoder (R15, R20, R32). -/
def Obligations.CursorMovesByTheLength : Prop :=
  ∀ i (s t : State) r, movesBytes i = true → exec i s = .next t → t.response = some ⟨.ok, r⟩ →
    t.cur.toNat = s.cur.toNat + t.len.toNat ∧ 1 ≤ t.len.toNat ∧ t.cur.toNat ≤ s.wend.toNat ∧
    (writesNothing i = false → r = t.len)

/-- Which commands can change which register (R14): the frame of the whole register file. The parameters, the host and the
draw of the reset bytes are changed by none. -/
def Obligations.RegistersAreWrittenOnlyByTheirCommands : Prop :=
  ∀ i (s t : State), exec i s = .next t →
    t.params = s.params ∧ t.host = s.host ∧ t.draw = s.draw ∧
    (t.src ≠ s.src → ∃ d, i = .wrreg .src d) ∧
    (t.val ≠ s.val → i.opcode ∈ [Opcode.vdec, .rd16, .getb, .fdec]) ∧
    (t.soff ≠ s.soff → i = .sdec) ∧
    (t.slen ≠ s.slen → i = .sdec) ∧
    (t.hdr ≠ s.hdr → i.opcode ∈ [Opcode.hdec, .fdec]) ∧
    (t.oend ≠ s.oend → i.opcode = .fdec ∨ ∃ d, i = .wrreg .oend d) ∧
    (t.wend ≠ s.wend → i.opcode ∈ [Opcode.fdec, .fexit] ∨ ∃ d, i = .wrreg .wend d) ∧
    (t.cur ≠ s.cur → movesBytes i = true ∨ i = .fexit ∨ ∃ d, i = .wrreg .cur d) ∧
    (t.len ≠ s.len → movesBytes i = true ∨ i = .fexit)

/-- With no byte left in the window, as after reset, every command that needs one fails: decoders with Truncated, encoders
of a legal value with BufferTooShort (R27, R122). -/
def Obligations.EmptyWindowFailsEveryBufferCommand : Prop :=
  ∀ s : State, s.wend.toNat ≤ s.cur.toNat →
    FailsWith .vdec s .truncated ∧ FailsWith .sdec s .truncated ∧ FailsWith .rd16 s .truncated ∧
    FailsWith .getb s .truncated ∧
    (∀ e : Nibble, e ≠ 15 → FailsWith (.hdec e) s .truncated ∧ FailsWith (.fdec e) s .truncated) ∧
    (∀ v : Word, v.toNat ≤ 268435455 → FailsWith (.venc v) s .bufferTooShort) ∧
    (∀ n : Word, n.toNat ≤ 65535 → s.src.toNat + n.toNat ≤ s.params.bufSize →
      FailsWith (.senc n) s .bufferTooShort) ∧
    (∀ w : Word, w.toNat ≤ 65535 → FailsWith (.wr16 w) s .bufferTooShort) ∧
    (∀ d : Word, d.toNat ≤ 255 → FailsWith (.putb d) s .bufferTooShort) ∧
    (∀ (t f : Nibble) rl, 1 ≤ t.toNat → t.toNat ≤ 14 → (12 ≤ t.toNat → rl.toNat = 0) →
      ¬ (t.toNat = 3 ∧ f.toNat / 2 % 4 = 3) → FailsWith (.fenc t f rl) s .bufferTooShort)

/-! ### Assembler syntax (30_encoding.md) -/

/-- Lines of the spec assemble to the words it writes beside them (R53; choices: log entry 14). -/
def Obligations.AssemblerWritesTheSpecsWords : Prop :=
  (assembleLine "WRREG END, 16").map (·.map requestText) = some ["00000101/00000010".toList] ∧
  (assembleLine "WRREG #11, 0").map (·.map requestText) = some ["00000B01/00000000".toList] ∧
  (assembleLine "RDREG FPOS").map (·.map requestText) = some ["00000A02/00000000".toList] ∧
  (assembleLine "FDEC PUBLISH").map (·.map requestText) = some ["00000331/00000000".toList] ∧
  (assembleLine "FENC 3, 3, 10").map (·.map requestText) = some ["00000330/000000A3".toList] ∧
  (assembleLine "VENC 268435455").map (·.map requestText) = some ["00000010/0FFFFFFF".toList] ∧
  (assembleLine "PUTB 0x2F").map (·.map requestText) = some ["00000040/0000002F".toList] ∧
  (assembleLine "FEXIT").map (·.map requestText) = some ["00000033/00000000".toList]

/-- The pseudo-commands expand as R55 says, and PING writes C0 00 at the cursor of any window of two bytes or more (R55,
R86). -/
def Obligations.PseudoCommandsExpand : Prop :=
  (∀ a b, (Pseudo.win a b).expand = [.wrreg .cur a, .wrreg .wend b]) ∧
  Pseudo.clrerr.expand = [.wrreg .ferr 0] ∧
  Pseudo.remain.expand = [.rdreg .wend, .rdreg .cur] ∧
  (∀ bs, (Pseudo.puts bs).expand = bs.map .putb) ∧
  Pseudo.ping.expand = [.fenc 12 0 0] ∧
  ∀ s : State, s.wend.toNat ≤ s.params.bufSize → s.cur.toNat + 2 ≤ s.wend.toNat →
    ∀ i ∈ Pseudo.ping.expand, WritesAtCursor i s [0xC0, 0x00]
end

