-- ==== Sys2Proof/Laws/State.lean ====
section
/-! SUPPORT. The field lemmas of every named update of State: one per field per update, so that no proof unfolds an update. -/

namespace Sys2Proof.Machine

variable (s : State)

/-! ### setReg -/

@[simp] theorem setReg_cur (v : Word) : s.setReg .cur v = { s with cur := v } := rfl
@[simp] theorem setReg_wend (v : Word) : s.setReg .wend v = { s with wend := v } := rfl
@[simp] theorem setReg_oend (v : Word) : s.setReg .oend v = { s with oend := v } := rfl
@[simp] theorem setReg_src (v : Word) : s.setReg .src v = { s with src := v } := rfl
@[simp] theorem setReg_val (v : Word) : s.setReg .val v = { s with val := v } := rfl
@[simp] theorem setReg_len (v : Word) : s.setReg .len v = { s with len := v } := rfl
@[simp] theorem setReg_soff (v : Word) : s.setReg .soff v = { s with soff := v } := rfl
@[simp] theorem setReg_slen (v : Word) : s.setReg .slen v = { s with slen := v } := rfl
@[simp] theorem setReg_hdr (v : Word) : s.setReg .hdr v = { s with hdr := v } := rfl
@[simp] theorem setReg_ferr (v : Word) : s.setReg .ferr v = { s with ferr := v } := rfl
@[simp] theorem setReg_fpos (v : Word) : s.setReg .fpos v = { s with fpos := v } := rfl

/-- Reading a register after a write (00_scope.md R9). -/
theorem reg_setReg (r q : Reg) (v : Word) : (s.setReg r v).reg q = if q = r then v else s.reg q := by
  cases r <;> cases q <;> rfl

@[simp] theorem setReg_params_field (r : Reg) (v : Word) : (s.setReg r v).params = s.params := by cases r <;> rfl
@[simp] theorem setReg_mem_field (r : Reg) (v : Word) : (s.setReg r v).mem = s.mem := by cases r <;> rfl
@[simp] theorem setReg_host_field (r : Reg) (v : Word) : (s.setReg r v).host = s.host := by cases r <;> rfl
@[simp] theorem setReg_response_field (r : Reg) (v : Word) : (s.setReg r v).response = s.response := by cases r <;> rfl
@[simp] theorem setReg_draw_field (r : Reg) (v : Word) : (s.setReg r v).draw = s.draw := by cases r <;> rfl

/-! ### advance -/

@[simp] theorem advance_params (n : Nat) : (s.advance n).params = s.params := rfl
@[simp] theorem advance_cur (n : Nat) : (s.advance n).cur = word (s.cur.toNat + n) := rfl
@[simp] theorem advance_wend (n : Nat) : (s.advance n).wend = s.wend := rfl
@[simp] theorem advance_oend (n : Nat) : (s.advance n).oend = s.oend := rfl
@[simp] theorem advance_src (n : Nat) : (s.advance n).src = s.src := rfl
@[simp] theorem advance_val (n : Nat) : (s.advance n).val = s.val := rfl
@[simp] theorem advance_len (n : Nat) : (s.advance n).len = word n := rfl
@[simp] theorem advance_soff (n : Nat) : (s.advance n).soff = s.soff := rfl
@[simp] theorem advance_slen (n : Nat) : (s.advance n).slen = s.slen := rfl
@[simp] theorem advance_hdr (n : Nat) : (s.advance n).hdr = s.hdr := rfl
@[simp] theorem advance_ferr (n : Nat) : (s.advance n).ferr = s.ferr := rfl
@[simp] theorem advance_fpos (n : Nat) : (s.advance n).fpos = s.fpos := rfl
@[simp] theorem advance_mem (n : Nat) : (s.advance n).mem = s.mem := rfl
@[simp] theorem advance_host (n : Nat) : (s.advance n).host = s.host := rfl
@[simp] theorem advance_response (n : Nat) : (s.advance n).response = s.response := rfl
@[simp] theorem advance_draw (n : Nat) : (s.advance n).draw = s.draw := rfl

/-! ### respond -/

@[simp] theorem respond_params (c : Status) (r : Word) : (s.respond c r).params = s.params := rfl
@[simp] theorem respond_cur (c : Status) (r : Word) : (s.respond c r).cur = s.cur := rfl
@[simp] theorem respond_wend (c : Status) (r : Word) : (s.respond c r).wend = s.wend := rfl
@[simp] theorem respond_oend (c : Status) (r : Word) : (s.respond c r).oend = s.oend := rfl
@[simp] theorem respond_src (c : Status) (r : Word) : (s.respond c r).src = s.src := rfl
@[simp] theorem respond_val (c : Status) (r : Word) : (s.respond c r).val = s.val := rfl
@[simp] theorem respond_len (c : Status) (r : Word) : (s.respond c r).len = s.len := rfl
@[simp] theorem respond_soff (c : Status) (r : Word) : (s.respond c r).soff = s.soff := rfl
@[simp] theorem respond_slen (c : Status) (r : Word) : (s.respond c r).slen = s.slen := rfl
@[simp] theorem respond_hdr (c : Status) (r : Word) : (s.respond c r).hdr = s.hdr := rfl
@[simp] theorem respond_ferr (c : Status) (r : Word) : (s.respond c r).ferr = s.ferr := rfl
@[simp] theorem respond_fpos (c : Status) (r : Word) : (s.respond c r).fpos = s.fpos := rfl
@[simp] theorem respond_mem (c : Status) (r : Word) : (s.respond c r).mem = s.mem := rfl
@[simp] theorem respond_host (c : Status) (r : Word) : (s.respond c r).host = s.host := rfl
@[simp] theorem respond_response (c : Status) (r : Word) : (s.respond c r).response = some ⟨c, r⟩ := rfl
@[simp] theorem respond_draw (c : Status) (r : Word) : (s.respond c r).draw = s.draw := rfl

/-! ### withHost -/

@[simp] theorem withHost_params (h : List HostAction) : (s.withHost h).params = s.params := rfl
@[simp] theorem withHost_cur (h : List HostAction) : (s.withHost h).cur = s.cur := rfl
@[simp] theorem withHost_wend (h : List HostAction) : (s.withHost h).wend = s.wend := rfl
@[simp] theorem withHost_oend (h : List HostAction) : (s.withHost h).oend = s.oend := rfl
@[simp] theorem withHost_src (h : List HostAction) : (s.withHost h).src = s.src := rfl
@[simp] theorem withHost_val (h : List HostAction) : (s.withHost h).val = s.val := rfl
@[simp] theorem withHost_len (h : List HostAction) : (s.withHost h).len = s.len := rfl
@[simp] theorem withHost_soff (h : List HostAction) : (s.withHost h).soff = s.soff := rfl
@[simp] theorem withHost_slen (h : List HostAction) : (s.withHost h).slen = s.slen := rfl
@[simp] theorem withHost_hdr (h : List HostAction) : (s.withHost h).hdr = s.hdr := rfl
@[simp] theorem withHost_ferr (h : List HostAction) : (s.withHost h).ferr = s.ferr := rfl
@[simp] theorem withHost_fpos (h : List HostAction) : (s.withHost h).fpos = s.fpos := rfl
@[simp] theorem withHost_mem (h : List HostAction) : (s.withHost h).mem = s.mem := rfl
@[simp] theorem withHost_host (h : List HostAction) : (s.withHost h).host = h := rfl
@[simp] theorem withHost_response (h : List HostAction) : (s.withHost h).response = s.response := rfl
@[simp] theorem withHost_draw (h : List HostAction) : (s.withHost h).draw = s.draw := rfl

/-! ### leaveFrame -/

@[simp] theorem leaveFrame_params : (s.leaveFrame).params = s.params := rfl
@[simp] theorem leaveFrame_cur : (s.leaveFrame).cur = s.wend := rfl
@[simp] theorem leaveFrame_wend : (s.leaveFrame).wend = s.oend := rfl
@[simp] theorem leaveFrame_oend : (s.leaveFrame).oend = s.oend := rfl
@[simp] theorem leaveFrame_src : (s.leaveFrame).src = s.src := rfl
@[simp] theorem leaveFrame_val : (s.leaveFrame).val = s.val := rfl
@[simp] theorem leaveFrame_len : (s.leaveFrame).len = 0 := rfl
@[simp] theorem leaveFrame_soff : (s.leaveFrame).soff = s.soff := rfl
@[simp] theorem leaveFrame_slen : (s.leaveFrame).slen = s.slen := rfl
@[simp] theorem leaveFrame_hdr : (s.leaveFrame).hdr = s.hdr := rfl
@[simp] theorem leaveFrame_ferr : (s.leaveFrame).ferr = s.ferr := rfl
@[simp] theorem leaveFrame_fpos : (s.leaveFrame).fpos = s.fpos := rfl
@[simp] theorem leaveFrame_mem : (s.leaveFrame).mem = s.mem := rfl
@[simp] theorem leaveFrame_host : (s.leaveFrame).host = s.host := rfl
@[simp] theorem leaveFrame_response : (s.leaveFrame).response = s.response := rfl
@[simp] theorem leaveFrame_draw : (s.leaveFrame).draw = s.draw := rfl

/-! ### enterFrame -/

@[simp] theorem enterFrame_params (b : Byte) (rl n : Nat) : (s.enterFrame b rl n).params = s.params := rfl
@[simp] theorem enterFrame_cur (b : Byte) (rl n : Nat) : (s.enterFrame b rl n).cur = word (s.cur.toNat + 1 + n) := rfl
@[simp] theorem enterFrame_wend (b : Byte) (rl n : Nat) : (s.enterFrame b rl n).wend = word (s.cur.toNat + 1 + n + rl) := rfl
@[simp] theorem enterFrame_oend (b : Byte) (rl n : Nat) : (s.enterFrame b rl n).oend = s.wend := rfl
@[simp] theorem enterFrame_src (b : Byte) (rl n : Nat) : (s.enterFrame b rl n).src = s.src := rfl
@[simp] theorem enterFrame_val (b : Byte) (rl n : Nat) : (s.enterFrame b rl n).val = word rl := rfl
@[simp] theorem enterFrame_len (b : Byte) (rl n : Nat) : (s.enterFrame b rl n).len = word (1 + n) := rfl
@[simp] theorem enterFrame_soff (b : Byte) (rl n : Nat) : (s.enterFrame b rl n).soff = s.soff := rfl
@[simp] theorem enterFrame_slen (b : Byte) (rl n : Nat) : (s.enterFrame b rl n).slen = s.slen := rfl
@[simp] theorem enterFrame_hdr (b : Byte) (rl n : Nat) : (s.enterFrame b rl n).hdr = b.zeroExtend 32 := rfl
@[simp] theorem enterFrame_ferr (b : Byte) (rl n : Nat) : (s.enterFrame b rl n).ferr = s.ferr := rfl
@[simp] theorem enterFrame_fpos (b : Byte) (rl n : Nat) : (s.enterFrame b rl n).fpos = s.fpos := rfl
@[simp] theorem enterFrame_mem (b : Byte) (rl n : Nat) : (s.enterFrame b rl n).mem = s.mem := rfl
@[simp] theorem enterFrame_host (b : Byte) (rl n : Nat) : (s.enterFrame b rl n).host = s.host := rfl
@[simp] theorem enterFrame_response (b : Byte) (rl n : Nat) : (s.enterFrame b rl n).response = s.response := rfl
@[simp] theorem enterFrame_draw (b : Byte) (rl n : Nat) : (s.enterFrame b rl n).draw = s.draw := rfl

/-! ### afterReset -/

@[simp] theorem afterReset_params (h : List HostAction) : (s.afterReset h).params = s.params := rfl
@[simp] theorem afterReset_cur (h : List HostAction) : (s.afterReset h).cur = 0 := rfl
@[simp] theorem afterReset_wend (h : List HostAction) : (s.afterReset h).wend = 0 := rfl
@[simp] theorem afterReset_oend (h : List HostAction) : (s.afterReset h).oend = 0 := rfl
@[simp] theorem afterReset_src (h : List HostAction) : (s.afterReset h).src = 0 := rfl
@[simp] theorem afterReset_val (h : List HostAction) : (s.afterReset h).val = 0 := rfl
@[simp] theorem afterReset_len (h : List HostAction) : (s.afterReset h).len = 0 := rfl
@[simp] theorem afterReset_soff (h : List HostAction) : (s.afterReset h).soff = 0 := rfl
@[simp] theorem afterReset_slen (h : List HostAction) : (s.afterReset h).slen = 0 := rfl
@[simp] theorem afterReset_hdr (h : List HostAction) : (s.afterReset h).hdr = 0 := rfl
@[simp] theorem afterReset_ferr (h : List HostAction) : (s.afterReset h).ferr = 0 := rfl
@[simp] theorem afterReset_fpos (h : List HostAction) : (s.afterReset h).fpos = 0 := rfl
@[simp] theorem afterReset_mem (h : List HostAction) : (s.afterReset h).mem = [] := rfl
@[simp] theorem afterReset_host (h : List HostAction) : (s.afterReset h).host = h := rfl
@[simp] theorem afterReset_response (h : List HostAction) : (s.afterReset h).response = none := rfl
@[simp] theorem afterReset_draw (h : List HostAction) : (s.afterReset h).draw = s.draw + 1 := rfl

/-! ### afterFailure -/

@[simp] theorem afterFailure_params (c : Status) (o : Byte) : (s.afterFailure c o).params = s.params := rfl
@[simp] theorem afterFailure_cur (c : Status) (o : Byte) : (s.afterFailure c o).cur = s.cur := rfl
@[simp] theorem afterFailure_wend (c : Status) (o : Byte) : (s.afterFailure c o).wend = s.wend := rfl
@[simp] theorem afterFailure_oend (c : Status) (o : Byte) : (s.afterFailure c o).oend = s.oend := rfl
@[simp] theorem afterFailure_src (c : Status) (o : Byte) : (s.afterFailure c o).src = s.src := rfl
@[simp] theorem afterFailure_val (c : Status) (o : Byte) : (s.afterFailure c o).val = s.val := rfl
@[simp] theorem afterFailure_len (c : Status) (o : Byte) : (s.afterFailure c o).len = s.len := rfl
@[simp] theorem afterFailure_soff (c : Status) (o : Byte) : (s.afterFailure c o).soff = s.soff := rfl
@[simp] theorem afterFailure_slen (c : Status) (o : Byte) : (s.afterFailure c o).slen = s.slen := rfl
@[simp] theorem afterFailure_hdr (c : Status) (o : Byte) : (s.afterFailure c o).hdr = s.hdr := rfl
@[simp] theorem afterFailure_ferr (c : Status) (o : Byte) : (s.afterFailure c o).ferr = if s.ferr.toNat % 16 = 0 then word (o.toNat * 256 + c.code.toNat) else s.ferr := rfl
@[simp] theorem afterFailure_fpos (c : Status) (o : Byte) : (s.afterFailure c o).fpos = if s.ferr.toNat % 16 = 0 then s.cur else s.fpos := rfl
@[simp] theorem afterFailure_mem (c : Status) (o : Byte) : (s.afterFailure c o).mem = s.mem := rfl
@[simp] theorem afterFailure_host (c : Status) (o : Byte) : (s.afterFailure c o).host = s.host := rfl
@[simp] theorem afterFailure_response (c : Status) (o : Byte) : (s.afterFailure c o).response = some ⟨c, 0⟩ := rfl
@[simp] theorem afterFailure_draw (c : Status) (o : Byte) : (s.afterFailure c o).draw = s.draw := rfl

/-! ### capture and fail -/

/-- FERR.CODE is FERR mod 16 (10_state.md R24). -/
theorem ferrCode_toNat (w : Word) : (ferrCode w).toNat = w.toNat % 16 := by
  simp [ferrCode, BitVec.extractLsb'_toNat]

theorem ferrCode_eq_zero (w : Word) : ferrCode w = 0 ↔ w.toNat % 16 = 0 := by
  rw [← ferrCode_toNat, ← BitVec.toNat_inj]
  simp

/-- The FERR word of a failure, in numbers (60_exceptions.md R102). -/
theorem ferrWord_eq (opc : Byte) (c : Status) : ferrWord opc c = word (opc.toNat * 256 + c.code.toNat) := by
  have h : ∀ o : Byte, ∀ k : Nibble,
      (o.zeroExtend 32 <<< 8) ||| k.zeroExtend 32 = (word (o.toNat * 256 + k.toNat)) := by decide
  exact h opc c.code

/-- A failure is the state afterFailure describes: everything fail can do (R101, R102). -/
theorem fail_eq (c : Status) (opc : Byte) : s.fail c opc = s.afterFailure c opc := by
  unfold State.fail State.capture State.afterFailure State.respond
  by_cases h : s.ferr.toNat % 16 = 0
  · rw [if_pos ((ferrCode_eq_zero _).2 h)]
    simp only [if_pos h, ferrWord_eq]
  · rw [if_neg (fun x => h ((ferrCode_eq_zero _).1 x))]
    simp only [if_neg h]

end Sys2Proof.Machine
end

