-- ==== Sys2Proof/Laws/Memory.lean ====
section
/-! SUPPORT. BUF: reading after writing, and the canonical form (20_memory.md R31, R33). -/

namespace Sys2Proof.Machine

/-! ### One byte -/

theorem lookup_store_same (m : Memory) (a : Nat) (v : Byte) : (m.store a v).lookup a = some v := by
  induction m with
  | nil => simp [Memory.store, Memory.lookup]
  | cons c m ih =>
    obtain ⟨k, b⟩ := c
    simp only [Memory.store]
    split
    · simp [Memory.lookup]
    · split
      · simp [Memory.lookup]
      · rename_i h
        simp [Memory.lookup, Ne.symm h, ih]

theorem lookup_store_other (m : Memory) (a x : Nat) (v : Byte) (h : x ≠ a) :
    (m.store a v).lookup x = m.lookup x := by
  induction m with
  | nil => simp [Memory.store, Memory.lookup, Ne.symm h]
  | cons c m ih =>
    obtain ⟨k, b⟩ := c
    simp only [Memory.store]
    split
    · simp [Memory.lookup, Ne.symm h]
    · split
      · rename_i hk
        simp [Memory.lookup, ← hk, Ne.symm h]
      · simp [Memory.lookup, ih]

/-- A write adds no address but its own. -/
theorem mem_store (m : Memory) (a : Nat) (v : Byte) (c : Host.Cell) (h : c ∈ m.store a v) : c.1 = a ∨ c ∈ m := by
  induction m with
  | nil => simp_all [Memory.store]
  | cons d m ih =>
    obtain ⟨k, b⟩ := d
    simp only [Memory.store] at h
    split at h
    · simp only [List.mem_cons] at h ⊢
      rcases h with rfl | h | h <;> simp_all
    · split at h
      · simp only [List.mem_cons] at h ⊢
        rcases h with rfl | h <;> simp_all
      · simp only [List.mem_cons] at h ⊢
        rcases h with h | h
        · simp [h]
        · rcases ih h with h | h <;> simp [h]

theorem store_wf (m : Memory) (a : Nat) (v : Byte) (h : m.wf = true) : (m.store a v).wf = true := by
  simp only [Memory.wf, decide_eq_true_eq] at h ⊢
  induction m with
  | nil => simp [Memory.store]
  | cons c m ih =>
    obtain ⟨k, b⟩ := c
    rw [List.pairwise_cons] at h
    simp only [Memory.store]
    split
    · rename_i hk
      refine List.pairwise_cons.2 ⟨?_, List.pairwise_cons.2 h⟩
      intro d hd
      rcases List.mem_cons.1 hd with rfl | hd
      · exact hk
      · exact Nat.lt_trans hk (h.1 d hd)
    · split
      · rename_i hk
        subst hk
        exact List.pairwise_cons.2 h
      · rename_i h1 h2
        refine List.pairwise_cons.2 ⟨?_, ih h.2⟩
        intro d hd
        rcases mem_store m a v d hd with hd | hd
        · show k < d.1
          omega
        · exact h.1 d hd

/-! ### A run of bytes -/

theorem lookup_storeAll_other (bs : List Byte) (m : Memory) (a x : Nat) (h : x < a ∨ a + bs.length ≤ x) :
    (m.storeAll a bs).lookup x = m.lookup x := by
  induction bs generalizing m a with
  | nil => rfl
  | cons b bs ih =>
    simp only [List.length_cons] at h
    rw [Memory.storeAll, ih _ _ (by omega), lookup_store_other _ _ _ _ (by omega)]

theorem lookup_storeAll (bs : List Byte) (m : Memory) (a k : Nat) (h : k < bs.length) :
    (m.storeAll a bs).lookup (a + k) = some bs[k] := by
  induction bs generalizing m a k with
  | nil => simp at h
  | cons b bs ih =>
    rw [Memory.storeAll]
    cases k with
    | zero => rw [lookup_storeAll_other _ _ _ _ (by omega)]; simpa using lookup_store_same m a b
    | succ k =>
      have := ih (m.store a b) (a + 1) k (by simpa using h)
      rw [show a + (k + 1) = a + 1 + k by omega, this]
      simp

/-- Every memory operation keeps the canonical form. -/
theorem storeAll_wf (bs : List Byte) (m : Memory) (a : Nat) (h : m.wf = true) : (m.storeAll a bs).wf = true := by
  induction bs generalizing m a with
  | nil => exact h
  | cons b bs ih => exact ih _ _ (store_wf m a b h)

/-- Writing bytes lists no address but theirs. -/
theorem mem_storeAll (bs : List Byte) (m : Memory) (a : Nat) (c : Host.Cell) (h : c ∈ m.storeAll a bs) :
    (a ≤ c.1 ∧ c.1 < a + bs.length) ∨ c ∈ m := by
  induction bs generalizing m a with
  | nil => exact .inr h
  | cons b bs ih =>
    rw [Memory.storeAll] at h
    simp only [List.length_cons]
    rcases ih _ _ h with h | h
    · left; omega
    · rcases mem_store m a b c h with h | h
      · left; omega
      · exact .inr h

/-! ### Bytes of a state -/

/-- A byte of BUF depends on nothing but what is written and the draw. -/
theorem byteAt_congr {s t : State} (hm : t.mem = s.mem) (hd : t.draw = s.draw) (a : Nat) :
    t.byteAt a = s.byteAt a := by
  simp only [State.byteAt, hm, hd]

theorem byteAt_storeAll_other (s : State) (a x : Nat) (bs : List Byte) (h : x < a ∨ a + bs.length ≤ x) :
    { s with mem := s.mem.storeAll a bs }.byteAt x = s.byteAt x := by
  simp only [State.byteAt, lookup_storeAll_other _ _ _ _ h]

theorem byteAt_storeAll (s : State) (a k : Nat) (bs : List Byte) (h : k < bs.length) :
    { s with mem := s.mem.storeAll a bs }.byteAt (a + k) = bs[k] := by
  simp only [State.byteAt, lookup_storeAll _ _ _ _ h, Option.getD_some]

@[simp] theorem bytesAt_length (s : State) (a n : Nat) : (s.bytesAt a n).length = n := by simp [State.bytesAt]

@[simp] theorem bytesAt_getElem (s : State) (a n k : Nat) (h : k < (s.bytesAt a n).length) :
    (s.bytesAt a n)[k] = s.byteAt (a + k) := by simp [State.bytesAt]

theorem bytesAt_congr {s t : State} {a n : Nat} (h : ∀ k, k < n → t.byteAt (a + k) = s.byteAt (a + k)) :
    t.bytesAt a n = s.bytesAt a n := by
  simp only [State.bytesAt]
  exact List.map_congr_left fun k hk => h k (by simpa using hk)

end Sys2Proof.Machine
end

