-- ==== Sys2Proof/Laws/Flow.lean ====
section
/-! SUPPORT. What each shared operation can do, said once: a check, an access to BUF, writing at the cursor, the end of a command. -/

namespace Sys2Proof.Machine

/-! ### Sequencing -/

@[simp] theorem ok_bind {α β : Type} (x : α) (f : α → Cmd β) : (Except.ok x >>= f) = f x := rfl

@[simp] theorem error_bind {α β : Type} (e : Stop) (f : α → Cmd β) : ((Except.error e : Cmd α) >>= f) = .error e := rfl

@[simp] theorem pure_eq_ok {α : Type} (x : α) : (pure x : Cmd α) = .ok x := rfl

@[simp] theorem raise_bind {α β : Type} (c : Status) (f : α → Cmd β) :
    ((raise c : Cmd α) >>= f) = .error (.raised c) := rfl

theorem check_pos {p : Prop} [Decidable p] (h : p) (c : Status) : check p c = .ok () := if_pos h

theorem check_neg {p : Prop} [Decidable p] (h : ¬ p) (c : Status) : check p c = .error (.raised c) := if_neg h

/-- What a sequence that succeeds did: both parts succeeded. -/
theorem bind_eq_ok {α β : Type} {x : Cmd α} {f : α → Cmd β} {r : β} :
    (x >>= f) = .ok r ↔ ∃ a, x = .ok a ∧ f a = .ok r := by
  cases x <;> simp

/-- How a sequence stops: in its first part, or in its second. -/
theorem bind_eq_error {α β : Type} {x : Cmd α} {f : α → Cmd β} {e : Stop} :
    (x >>= f) = .error e ↔ x = .error e ∨ ∃ a, x = .ok a ∧ f a = .error e := by
  cases x <;> simp

theorem check_eq_ok {p : Prop} [Decidable p] {c : Status} {u : Unit} : check p c = .ok u ↔ p := by
  by_cases h : p <;> simp [check, raise, h]

theorem check_eq_error {p : Prop} [Decidable p] {c : Status} {e : Stop} :
    check p c = .error e ↔ ¬ p ∧ e = .raised c := by
  by_cases h : p <;> simp [check, raise, h, eq_comm]

/-! ### BUF -/

theorem memByte_eq_ok {s : State} {a : Nat} {b : Byte} :
    memByte s a = .ok b ↔ a < s.params.bufSize ∧ s.byteAt a = b := by
  unfold memByte
  split <;> simp_all

theorem memByte_eq_error {s : State} {a : Nat} {e : Stop} :
    memByte s a = .error e ↔ s.params.bufSize ≤ a ∧ e = .fault (.outsideBuffer a) := by
  unfold memByte
  split <;> simp_all [eq_comm]

theorem memRead_eq_ok {s : State} {a n : Nat} {bs : List Byte} :
    memRead s a n = .ok bs ↔ a + n ≤ s.params.bufSize ∧ s.bytesAt a n = bs := by
  unfold memRead
  split <;> simp_all

theorem memRead_eq_error {s : State} {a n : Nat} {e : Stop} :
    memRead s a n = .error e ↔ s.params.bufSize < a + n ∧ e = .fault (.outsideBuffer a) := by
  unfold memRead
  split <;> simp_all [eq_comm]

theorem memWrite_eq_ok {s t : State} {a : Nat} {bs : List Byte} :
    memWrite s a bs = .ok t ↔ a + bs.length ≤ s.params.bufSize ∧ { s with mem := s.mem.storeAll a bs } = t := by
  unfold memWrite
  split <;> simp_all

theorem memWrite_eq_error {s : State} {a : Nat} {bs : List Byte} {e : Stop} :
    memWrite s a bs = .error e ↔ s.params.bufSize < a + bs.length ∧ e = .fault (.outsideBuffer a) := by
  unfold memWrite
  split <;> simp_all [eq_comm]

theorem memBe16_eq_ok {s : State} {a v : Nat} :
    memBe16 s a = .ok v ↔ a + 1 < s.params.bufSize ∧ be16 (s.byteAt a) (s.byteAt (a + 1)) = v := by
  simp only [memBe16, bind_eq_ok, memByte_eq_ok, pure_eq_ok, Except.ok.injEq]
  constructor
  · rintro ⟨_, ⟨_, rfl⟩, _, ⟨h, rfl⟩, rfl⟩
    exact ⟨h, rfl⟩
  · rintro ⟨h, rfl⟩
    exact ⟨_, ⟨by omega, rfl⟩, _, ⟨h, rfl⟩, rfl⟩

theorem memBe16_eq_error {s : State} {a : Nat} {e : Stop} (h : memBe16 s a = .error e) :
    s.params.bufSize ≤ a + 1 ∧ ∃ x, e = .fault (.outsideBuffer x) := by
  simp only [memBe16, bind_eq_error, memByte_eq_error, memByte_eq_ok, pure_eq_ok] at h
  rcases h with ⟨h, rfl⟩ | ⟨_, _, ⟨h, rfl⟩ | ⟨_, _, h⟩⟩
  · exact ⟨by omega, _, rfl⟩
  · exact ⟨h, _, rfl⟩
  · exact nomatch h

theorem be16_lt (b0 b1 : Byte) : be16 b0 b1 < 65536 := by
  have := b0.isLt
  have := b1.isLt
  simp only [be16]
  omega

/-! ### Writing at the cursor -/

/-- The state after `bs` was written at the cursor. -/
def State.emitted (s : State) (bs : List Byte) : State :=
  { s with mem := s.mem.storeAll s.cur.toNat bs }.advance bs.length

theorem emit_eq_ok {s t : State} {bs : List Byte} {r : Word} :
    emit s bs = .ok (t, r) ↔ s.inWin bs.length ∧ s.cur.toNat + bs.length ≤ s.params.bufSize ∧
      t = s.emitted bs ∧ r = word bs.length := by
  simp only [emit, bind_eq_ok, check_eq_ok, memWrite_eq_ok, pure_eq_ok, Except.ok.injEq, Prod.mk.injEq, State.emitted]
  constructor
  · rintro ⟨_, h, _, ⟨h', rfl⟩, rfl, rfl⟩
    exact ⟨h, h', rfl, rfl⟩
  · rintro ⟨h, h', rfl, rfl⟩
    exact ⟨(), h, _, ⟨h', rfl⟩, rfl, rfl⟩

theorem emit_eq_error {s : State} {bs : List Byte} {e : Stop} (h : emit s bs = .error e) :
    (¬ s.inWin bs.length ∧ e = .raised .bufferTooShort) ∨
    (s.inWin bs.length ∧ s.params.bufSize < s.cur.toNat + bs.length ∧ ∃ a, e = .fault (.outsideBuffer a)) := by
  simp only [emit, bind_eq_error, check_eq_error, check_eq_ok, memWrite_eq_error, pure_eq_ok] at h
  rcases h with h | ⟨_, h, ⟨h', rfl⟩ | ⟨_, _, h'⟩⟩
  · exact .inl h
  · exact .inr ⟨h, h', _, rfl⟩
  · exact nomatch h'

theorem emit_short {s : State} {bs : List Byte} (h : s.wend.toNat < s.cur.toNat + bs.length) :
    emit s bs = .error (.raised .bufferTooShort) := by
  rw [emit, check_neg (by simp only [State.inWin]; omega), error_bind]

theorem emit_fits {s : State} {bs : List Byte} (hw : s.wend.toNat ≤ s.params.bufSize)
    (h : s.cur.toNat + bs.length ≤ s.wend.toNat) : emit s bs = .ok (s.emitted bs, word bs.length) :=
  emit_eq_ok.2 ⟨h, by omega, rfl, rfl⟩

/-! ### The end of a command -/

/-- Everything the end of a command can do: commit and answer OK, fail, or stop with a fault. -/
theorem answer_eq_next {o : Opcode} {s t : State} {c : Cmd (State × Word)} :
    answer o s c = .next t ↔
      (∃ u r, c = .ok (u, r) ∧ t = u.respond .ok r) ∨ ∃ st, c = .error (.raised st) ∧ t = s.afterFailure st o.byte := by
  rcases c with (st | f) | ⟨u, r⟩ <;> simp [answer, fail_eq, eq_comm]

theorem answer_ok {o : Opcode} {s u : State} {c : Cmd (State × Word)} {r : Word} (h : c = .ok (u, r)) :
    answer o s c = .next (u.respond .ok r) := by rw [h]; rfl

theorem answer_raised {o : Opcode} {s : State} {c : Cmd (State × Word)} {st : Status} (h : c = .error (.raised st)) :
    answer o s c = .next (s.afterFailure st o.byte) := by rw [h, ← fail_eq]; rfl

theorem answer_eq_fault {o : Opcode} {s : State} {c : Cmd (State × Word)} {f : Fault} :
    answer o s c = .fault f ↔ c = .error (.fault f) := by
  rcases c with (st | f) | ⟨u, r⟩ <;> simp [answer]

theorem answer_ne_refused {o : Opcode} {s : State} {c : Cmd (State × Word)} {r : Refusal} :
    answer o s c ≠ .refused r := by
  rcases c with (st | f) | ⟨u, r⟩ <;> simp [answer]

end Sys2Proof.Machine
end

