-- ==== Sys2Proof/Laws/VarInt.lean ====
section
/-! SUPPORT. The VarInt encoder and decoder (40_varint.md R60, R61), each said once. -/

namespace Sys2Proof.Machine

/-! ### Bytes -/

theorem and_7F_toNat (b : Byte) : (b &&& 0x7F).toNat = b.toNat % 128 := by
  have h : ∀ b : Byte, (b &&& 0x7F).toNat = b.toNat % 128 := by decide
  exact h b

/-- Bit 7 set means more bytes follow (R34). -/
theorem bit7_iff (b : Byte) : b.getLsbD 7 = false ↔ b.toNat < 128 := by
  have h : ∀ b : Byte, (b.getLsbD 7 = false ↔ b.toNat < 128) := by decide
  exact h b

theorem byte_eq_zero (b : Byte) : b = 0 ↔ b.toNat = 0 := by
  rw [← BitVec.toNat_inj]; rfl

/-! ### The decoder -/

/-- The sum of the groups of the bytes `i`, ..., `i + n - 1` of a VarInt at `p`. -/
def groupSum (s : State) (p i n : Nat) : Nat :=
  ((List.range n).map fun j => (s.byteAt (p + (i + j))).toNat % 128 * 128 ^ (i + j)).sum

theorem groupSum_zero_left (s : State) (p n : Nat) : groupSum s p 0 n = varIntValue s p n := by
  simp [groupSum, varIntValue]

theorem groupSum_succ (s : State) (p i n : Nat) :
    groupSum s p i (n + 1) = (s.byteAt (p + i)).toNat % 128 * 128 ^ i + groupSum s p (i + 1) n := by
  simp only [groupSum, List.range_succ_eq_map, List.map_cons, List.map_map, List.sum_cons, Nat.add_zero]
  congr 2
  refine List.map_congr_left fun j _ => ?_
  simp only [Function.comp_apply]
  rw [show i + j.succ = i + 1 + j by omega]

theorem group_shift (b : Byte) (i : Nat) : (b &&& 0x7F).toNat <<< (7 * i) = b.toNat % 128 * 128 ^ i := by
  rw [and_7F_toNat, Nat.shiftLeft_eq, show (128 : Nat) = 2 ^ 7 by rfl, ← Nat.pow_mul]

/-- One turn of the decoder's loop (R61). -/
theorem varDecFrom_succ (s : State) (p e k i v : Nat) :
    varDecFrom s p e (k + 1) i v =
      (check (p + i < e) .truncated >>= fun _ => memByte s (p + i) >>= fun b =>
        if b.toNat < 128 then
          check (¬ (s.params.strict = true ∧ i + 1 > 1 ∧ b.toNat = 0)) .malformed >>= fun _ =>
            .ok (v + b.toNat % 128 * 128 ^ i, i + 1)
        else varDecFrom s p e k (i + 1) (v + b.toNat % 128 * 128 ^ i)) := by
  simp only [varDecFrom, group_shift, bit7_iff, byte_eq_zero, pure_eq_ok]

/-- The decoder on a VarInt that ends in the window. -/
theorem varDecFrom_ends {s : State} {p e : Nat} {k j : Nat} (hj : j < k) :
    ∀ {i v : Nat}, p + (i + j) < s.params.bufSize → (∀ m, m < j → 128 ≤ (s.byteAt (p + (i + m))).toNat) →
      (s.byteAt (p + (i + j))).toNat < 128 → p + (i + j) < e →
      varDecFrom s p e k i v =
        (check (¬ (s.params.strict = true ∧ i + j + 1 > 1 ∧ (s.byteAt (p + (i + j))).toNat = 0)) .malformed >>= fun _ =>
          .ok (v + groupSum s p i (j + 1), i + j + 1)) := by
  induction k generalizing j with
  | zero => omega
  | succ k ih =>
    intro i v he hc hend hin
    rw [varDecFrom_succ, check_pos (by omega), ok_bind, memByte_eq_ok.2 ⟨by omega, rfl⟩, ok_bind, groupSum_succ]
    cases j with
    | zero =>
      rw [if_pos (by simpa using hend)]
      simp [groupSum]
    | succ j =>
      rw [if_neg (by have := hc 0 (by omega); simp only [Nat.add_zero] at this; omega),
        ih (j := j) (by omega) (by omega) (fun m hm => by
          have := hc (m + 1) (by omega); rwa [show i + 1 + m = i + (m + 1) by omega])
          (by rwa [show i + 1 + j = i + (j + 1) by omega]) (by omega)]
      simp only [show i + 1 + j = i + (j + 1) by omega, Nat.add_assoc]

/-- The decoder on a VarInt whose bytes all have the continuation bit. -/
theorem varDecFrom_long {s : State} {p e : Nat} (he : e ≤ s.params.bufSize) {k : Nat} :
    ∀ {i v : Nat}, (∀ m, m < k → 128 ≤ (s.byteAt (p + (i + m))).toNat) → p + (i + k) ≤ e →
      varDecFrom s p e k i v = .error (.raised .malformed) := by
  induction k with
  | zero => intros; rfl
  | succ k ih =>
    intro i v hc hin
    rw [varDecFrom_succ, check_pos (by omega), ok_bind, memByte_eq_ok.2 ⟨by omega, rfl⟩, ok_bind,
      if_neg (by have := hc 0 (by omega); simp only [Nat.add_zero] at this; omega),
      ih (fun m hm => by have := hc (m + 1) (by omega); rwa [show i + 1 + m = i + (m + 1) by omega]) (by omega)]

/-- The decoder on a window that ends too early. -/
theorem varDecFrom_short {s : State} {p e : Nat} (he : e ≤ s.params.bufSize) {k : Nat} :
    ∀ {i v : Nat}, (∀ m, p + (i + m) < e → 128 ≤ (s.byteAt (p + (i + m))).toNat) → e < p + (i + (k + 1)) →
      varDecFrom s p e (k + 1) i v = .error (.raised .truncated) := by
  induction k with
  | zero =>
    intro i v hc hin
    rw [varDecFrom_succ, check_neg (by omega), error_bind]
  | succ k ih =>
    intro i v hc hin
    rw [varDecFrom_succ]
    by_cases h : p + i < e
    · rw [check_pos h, ok_bind, memByte_eq_ok.2 ⟨by omega, rfl⟩, ok_bind,
        if_neg (by have := hc 0 (by omega); simp only [Nat.add_zero] at this; omega),
        ih (fun m hm => by
          have := hc (m + 1) (by omega); rwa [show i + 1 + m = i + (m + 1) by omega]) (by omega)]
    · rw [check_neg h, error_bind]

/-- Everything the decoder can answer: it ended at a byte inside the window and inside BUF. -/
theorem varDecFrom_eq_ok {s : State} {p e k : Nat} :
    ∀ {i v w n : Nat}, varDecFrom s p e k i v = .ok (w, n) →
      ∃ j, j < k ∧ n = i + j + 1 ∧ w = v + groupSum s p i (j + 1) ∧ p + (i + j) < e ∧
        p + (i + j) < s.params.bufSize ∧ (∀ m, m < j → 128 ≤ (s.byteAt (p + (i + m))).toNat) ∧
        (s.byteAt (p + (i + j))).toNat < 128 ∧
        ¬ (s.params.strict = true ∧ i + j + 1 > 1 ∧ (s.byteAt (p + (i + j))).toNat = 0) := by
  induction k with
  | zero => intro i v w n h; exact nomatch h
  | succ k ih =>
    intro i v w n h
    rw [varDecFrom_succ] at h
    simp only [bind_eq_ok, check_eq_ok, memByte_eq_ok] at h
    obtain ⟨_, hin, b, ⟨hb, rfl⟩, h⟩ := h
    split at h
    · rename_i hlt
      simp only [bind_eq_ok, check_eq_ok, Except.ok.injEq, Prod.mk.injEq] at h
      obtain ⟨_, hs, rfl, rfl⟩ := h
      exact ⟨0, by omega, rfl, by simp [groupSum], hin, hb, by omega, by simpa using hlt, by simpa using hs⟩
    · rename_i hge
      obtain ⟨j, hj, rfl, rfl, h1, h2, h3, h4, h5⟩ := ih h
      have e1 : i + 1 + j = i + (j + 1) := by omega
      rw [e1] at h1 h2 h4 h5
      refine ⟨j + 1, by omega, by omega, ?_, h1, h2, ?_, h4, by simpa [Nat.add_assoc] using h5⟩
      · rw [groupSum_succ s p i (j + 1)]
        omega
      · intro m hm
        cases m with
        | zero => simp only [Nat.add_zero]; omega
        | succ m => have := h3 m (by omega); rwa [show i + 1 + m = i + (m + 1) by omega] at this

/-- How the decoder stops: Truncated, Malformed, or a byte outside BUF. -/
theorem varDecFrom_eq_error {s : State} {p e k : Nat} {x : Stop} :
    ∀ {i v : Nat}, varDecFrom s p e k i v = .error x →
      x = .raised .truncated ∨ x = .raised .malformed ∨ (s.params.bufSize < e ∧ ∃ a, x = .fault (.outsideBuffer a)) := by
  induction k with
  | zero => intro i v h; cases h; exact .inr (.inl rfl)
  | succ k ih =>
    intro i v h
    rw [varDecFrom_succ] at h
    simp only [bind_eq_error, check_eq_error, check_eq_ok, memByte_eq_error] at h
    rcases h with ⟨_, rfl⟩ | ⟨_, hin, ⟨hb, rfl⟩ | ⟨b, _, h⟩⟩
    · exact .inl rfl
    · exact .inr (.inr ⟨by omega, _, rfl⟩)
    · split at h
      · simp only [bind_eq_error, check_eq_error, reduceCtorEq, and_false, exists_false, or_false] at h
        exact .inr (.inl h.2)
      · exact ih h

/-- Everything VarDec can answer (R61): the VarInt ends in a byte `j` of the window and is not refused. -/
theorem varDec_eq_ok {s : State} {p e w n : Nat} (h : varDec s p e = .ok (w, n)) :
    ∃ j, j < 4 ∧ n = j + 1 ∧ w = varIntValue s p (j + 1) ∧ p + j < e ∧ p + j < s.params.bufSize ∧
      VarIntEndsAt s p j ∧ ¬ NotCanonical s p j := by
  obtain ⟨j, hj, rfl, rfl, h1, h2, h3, h4, h5⟩ := varDecFrom_eq_ok h
  simp only [Nat.zero_add] at *
  refine ⟨j, hj, rfl, groupSum_zero_left s p (j + 1), h1, h2, ⟨h3, h4⟩, ?_⟩
  rintro ⟨a, b, c⟩
  exact h5 ⟨a, by omega, c⟩

/-- The VarInt at an address ends in one of the four bytes inside the window, or runs out, or is too long. -/
theorem varInt_cases (s : State) (p e : Nat) :
    (∃ k, k < 4 ∧ p + k < e ∧ VarIntEndsAt s p k) ∨ VarIntTooLong s p e ∨ VarIntRunsOut s p e := by
  by_cases h : ∃ k, k < 4 ∧ p + k < e ∧ (s.byteAt (p + k)).toNat < 128
  · obtain ⟨h1, h2, h3⟩ := Nat.find_spec h
    refine .inl ⟨Nat.find h, h1, h2, fun j hj => ?_, h3⟩
    have := Nat.find_min h hj
    omega
  · by_cases hl : p + 4 ≤ e
    · refine .inr (.inl ⟨hl, fun j hj => ?_⟩)
      by_contra hc
      exact h ⟨j, hj, by omega, by omega⟩
    · refine .inr (.inr ⟨by omega, fun j hj => ?_⟩)
      by_contra hc
      exact h ⟨j, by omega, hj, by omega⟩

/-- Each group sum of `n` groups is below 128 ^ n. -/
theorem varIntValue_lt (s : State) (p n : Nat) : varIntValue s p n < 128 ^ n := by
  induction n with
  | zero => simp [varIntValue]
  | succ n ih =>
    have hs : varIntValue s p (n + 1) = varIntValue s p n + (s.byteAt (p + n)).toNat % 128 * 128 ^ n := by
      simp [varIntValue, List.range_succ]
    have hb : (s.byteAt (p + n)).toNat % 128 ≤ 127 := by omega
    have := Nat.mul_le_mul_right (128 ^ n) hb
    rw [hs, Nat.pow_succ]
    omega

theorem varIntValue_le (s : State) (p : Nat) {j : Nat} (hj : j < 4) : varIntValue s p (j + 1) ≤ 268435455 := by
  have h := varIntValue_lt s p (j + 1)
  have : 128 ^ (j + 1) ≤ 128 ^ 4 := Nat.pow_le_pow_right (by omega) (by omega)
  omega

/-! ### The encoder -/

theorem encLen_pos (v : Nat) : 1 ≤ encLen v ∧ encLen v ≤ 4 := by
  unfold encLen
  split_ifs <;> omega

@[simp] theorem encBytes_length (v : Nat) : (encBytes v).length = encLen v := by simp [encBytes]

theorem varGroup_toNat (v i : Nat) : (varGroup v i).toNat = v / 128 ^ i % 128 := by
  have h := Nat.and_two_pow_sub_one_eq_mod (v >>> (7 * i)) 7
  simp only [Nat.reducePow, Nat.reduceSub] at h
  rw [varGroup, h, Nat.shiftRight_eq_div_pow, Nat.pow_mul, BitVec.toNat_ofNat]
  exact Nat.mod_eq_of_lt (by omega)

theorem or_80_toNat (b : Byte) (h : b.toNat < 128) : (b ||| 0x80).toNat = b.toNat + 128 := by
  have hb : ∀ b : Byte, b.toNat < 128 → (b ||| 0x80).toNat = b.toNat + 128 := by decide
  exact hb b h

/-- A byte of an encoding, in numbers (R60). -/
theorem encBytes_getElem_toNat (v k : Nat) (h : k < (encBytes v).length) :
    (encBytes v)[k].toNat = v / 128 ^ k % 128 + if k + 1 < encLen v then 128 else 0 := by
  simp only [encBytes, List.getElem_map, List.getElem_range]
  split
  · rw [or_80_toNat _ (by rw [varGroup_toNat]; omega), varGroup_toNat]
  · simp [varGroup_toNat]

end Sys2Proof.Machine
end

