-- ==== Sys2Proof/Laws/Meanings.lean ====
section
/-! SUPPORT. What each command can do, said once: exec is the end of a command over its pseudocode, and each pseudocode has one lemma for what it succeeds with and one for how it stops. -/

namespace Sys2Proof.Machine

/-- The pseudocode of a command. -/
def body : Instr → State → Cmd (State × Word)
  | .nop, s => .ok (s, 0)
  | .wrreg r d, s => wrreg r d s
  | .rdreg r, s => .ok (s, s.reg r)
  | .venc v, s => venc v s
  | .vdec, s => vdec s
  | .senc len, s => senc len s
  | .sdec, s => sdec s
  | .wr16 w, s => wr16 w s
  | .rd16, s => rd16 s
  | .fenc t f rl, s => fenc t f rl s
  | .fdec e, s => fdec e s
  | .hdec e, s => hdec e s
  | .fexit, s => .ok (s.leaveFrame, s.wend)
  | .putb d, s => putb d s
  | .getb, s => getb s

theorem exec_eq_answer (i : Instr) (s : State) : exec i s = answer i.opcode s (body i s) := by cases i <;> rfl

/-- Everything exec can do when it gives a next state: commit what the pseudocode computed, or fail. -/
theorem exec_eq_next {i : Instr} {s t : State} :
    exec i s = .next t ↔
      (∃ u r, body i s = .ok (u, r) ∧ t = u.respond .ok r) ∨
      ∃ c, body i s = .error (.raised c) ∧ t = s.afterFailure c i.opcode.byte := by
  rw [exec_eq_answer, answer_eq_next]

theorem exec_ok {i : Instr} {s u : State} {r : Word} (h : body i s = .ok (u, r)) :
    exec i s = .next (u.respond .ok r) := by rw [exec_eq_answer, answer_ok h]

theorem failsWith_of_raised {i : Instr} {s : State} {c : Status} (h : body i s = .error (.raised c)) :
    FailsWith i s c := by rw [FailsWith, exec_eq_answer, answer_raised h]

theorem exec_eq_fault {i : Instr} {s : State} {f : Fault} :
    exec i s = .fault f ↔ body i s = .error (.fault f) := by rw [exec_eq_answer, answer_eq_fault]

theorem exec_ne_refused (i : Instr) (s : State) (r : Refusal) : exec i s ≠ .refused r := by
  rw [exec_eq_answer]; exact answer_ne_refused

/-- A next state that answers OK is the committed one. -/
theorem exec_next_ok {i : Instr} {s t : State} {r : Word} (h : exec i s = .next t)
    (hr : t.response = some ⟨.ok, r⟩) (hf : ∀ c, body i s = .error (.raised c) → c ≠ .ok) :
    ∃ u, body i s = .ok (u, r) ∧ t = u.respond .ok r := by
  rcases exec_eq_next.1 h with ⟨u, r', hb, rfl⟩ | ⟨c, hb, rfl⟩
  · simp only [respond_response, Option.some.injEq, Response.mk.injEq, true_and] at hr
    subst hr
    exact ⟨u, hb, rfl⟩
  · simp only [afterFailure_response, Option.some.injEq, Response.mk.injEq] at hr
    exact absurd hr.1 (hf c hb)

/-! ### WRREG -/

theorem writeAddress_eq_ok {s t : State} {r : Reg} {d v : Word} :
    writeAddress s r d = .ok (t, v) ↔ d.toNat ≤ s.params.bufSize ∧ t = s.setReg r d ∧ v = 0 := by
  simp only [writeAddress, bind_eq_ok, check_eq_ok, pure_eq_ok, Except.ok.injEq, Prod.mk.injEq]
  constructor
  · rintro ⟨_, h, rfl, rfl⟩
    exact ⟨h, rfl, rfl⟩
  · rintro ⟨h, rfl, rfl⟩
    exact ⟨(), h, rfl, rfl⟩

theorem writeAddress_eq_error {s : State} {r : Reg} {d : Word} {e : Stop} :
    writeAddress s r d = .error e ↔ s.params.bufSize < d.toNat ∧ e = .raised .outOfRange := by
  simp only [writeAddress, bind_eq_error, check_eq_error, pure_eq_ok, reduceCtorEq, and_false, exists_false, or_false,
    Nat.not_le]

theorem wrreg_eq_ok {s t : State} {r : Reg} {d v : Word} (h : wrreg r d s = .ok (t, v)) :
    v = 0 ∧ ((r ∈ [Reg.cur, .wend, .oend, .src] ∧ d.toNat ≤ s.params.bufSize ∧ t = s.setReg r d) ∨
      (r = .ferr ∧ t = { s with ferr := 0, fpos := 0 })) := by
  cases r <;> simp only [wrreg, writeAddress_eq_ok, Except.ok.injEq, Prod.mk.injEq, raise, reduceCtorEq] at h
  case ferr => obtain ⟨rfl, rfl⟩ := h; exact ⟨rfl, .inr ⟨rfl, rfl⟩⟩
  all_goals obtain ⟨h, rfl, rfl⟩ := h; exact ⟨rfl, .inl ⟨by simp, h, rfl⟩⟩

theorem wrreg_eq_error {s : State} {r : Reg} {d : Word} {e : Stop} (h : wrreg r d s = .error e) :
    (r ∈ [Reg.cur, .wend, .oend, .src] ∧ s.params.bufSize < d.toNat ∧ e = .raised .outOfRange) ∨
    (r.writable = false ∧ e = .raised .illegalCommand) := by
  cases r <;> simp only [wrreg, writeAddress_eq_error, raise, reduceCtorEq, Except.error.injEq] at h
  case val | len | soff | slen | hdr | fpos => exact .inr ⟨rfl, h.symm⟩
  all_goals exact .inl ⟨by simp, h⟩

/-! ### Encoders -/

theorem putb_eq_ok {s t : State} {d r : Word} : putb d s = .ok (t, r) ↔
    d.toNat ≤ 255 ∧ emit s [d.extractLsb' 0 8] = .ok (t, r) := by
  simp [putb, bind_eq_ok, check_eq_ok]

theorem putb_eq_error {s : State} {d : Word} {e : Stop} : putb d s = .error e ↔
    (255 < d.toNat ∧ e = .raised .outOfRange) ∨ d.toNat ≤ 255 ∧ emit s [d.extractLsb' 0 8] = .error e := by
  simp [putb, bind_eq_error, check_eq_error, check_eq_ok]

theorem venc_eq_ok {s t : State} {v r : Word} : venc v s = .ok (t, r) ↔
    v.toNat ≤ 268435455 ∧ emit s (encBytes v.toNat) = .ok (t, r) := by
  simp only [venc, bind_eq_ok, check_eq_ok]
  simp [maxVarInt]

theorem venc_eq_error {s : State} {v : Word} {e : Stop} : venc v s = .error e ↔
    (268435455 < v.toNat ∧ e = .raised .outOfRange) ∨ v.toNat ≤ 268435455 ∧ emit s (encBytes v.toNat) = .error e := by
  simp only [venc, bind_eq_error, check_eq_error, check_eq_ok]
  simp [maxVarInt]

theorem wr16_eq_ok {s t : State} {w r : Word} : wr16 w s = .ok (t, r) ↔
    w.toNat ≤ 65535 ∧ emit s (be16Bytes w.toNat) = .ok (t, r) := by
  simp [wr16, bind_eq_ok, check_eq_ok]

theorem wr16_eq_error {s : State} {w : Word} {e : Stop} : wr16 w s = .error e ↔
    (65535 < w.toNat ∧ e = .raised .outOfRange) ∨ w.toNat ≤ 65535 ∧ emit s (be16Bytes w.toNat) = .error e := by
  simp [wr16, bind_eq_error, check_eq_error, check_eq_ok]

theorem strBytes_length (bs : List Byte) : (strBytes bs).length = 2 + bs.length := by
  simp only [strBytes, be16Bytes, List.length_append, List.length_cons, List.length_nil]

theorem senc_eq_ok {s t : State} {len r : Word} : senc len s = .ok (t, r) ↔
    len.toNat ≤ 65535 ∧ s.src.toNat + len.toNat ≤ s.params.bufSize ∧
      emit s (strBytes (s.bytesAt s.src.toNat len.toNat)) = .ok (t, r) := by
  simp only [senc, bind_eq_ok, check_eq_ok, memRead_eq_ok]
  constructor
  · rintro ⟨_, h1, _, h2, _, h3, _, ⟨_, rfl⟩, h⟩
    exact ⟨h1, h2, h⟩
  · rintro ⟨h1, h2, h⟩
    refine ⟨(), h1, (), h2, (), ?_, _, ⟨h2, rfl⟩, h⟩
    have := (emit_eq_ok.1 h).1
    rwa [strBytes_length, bytesAt_length] at this

theorem senc_eq_error {s : State} {len : Word} {e : Stop} (h : senc len s = .error e) :
    ((65535 < len.toNat ∨ s.params.bufSize < s.src.toNat + len.toNat) ∧ e = .raised .outOfRange) ∨
    (len.toNat ≤ 65535 ∧ s.src.toNat + len.toNat ≤ s.params.bufSize ∧
      emit s (strBytes (s.bytesAt s.src.toNat len.toNat)) = .error e) := by
  simp only [senc, bind_eq_error, check_eq_ok, check_eq_error, memRead_eq_ok, memRead_eq_error] at h
  rcases h with ⟨h1, rfl⟩ | ⟨_, h1, ⟨h2, rfl⟩ | ⟨_, h2, ⟨h3, rfl⟩ | ⟨_, h3, ⟨h4, rfl⟩ | ⟨_, ⟨_, rfl⟩, h⟩⟩⟩⟩
  · exact .inl ⟨.inl (by omega), rfl⟩
  · exact .inl ⟨.inr (by omega), rfl⟩
  · refine .inr ⟨h1, h2, emit_short ?_⟩
    rw [strBytes_length, bytesAt_length]
    simp only [State.inWin] at h3
    omega
  · omega
  · exact .inr ⟨h1, h2, h⟩

theorem fenc_eq_ok {s u : State} {t f : Nibble} {rl : BitVec 28} {r : Word} : fenc t f rl s = .ok (u, r) ↔
    (t ≠ 0 ∧ t ≠ 15) ∧ ¬ (zeroLengthKind t = true ∧ rl ≠ 0) ∧ badQos t f = false ∧
      emit s (hdrByte t f :: encBytes rl.toNat) = .ok (u, r) := by
  simp [fenc, bind_eq_ok, check_eq_ok]

theorem fenc_eq_error {s : State} {t f : Nibble} {rl : BitVec 28} {e : Stop} (h : fenc t f rl s = .error e) :
    ((t = 0 ∨ t = 15) ∧ e = .raised .illegalCommand) ∨
    ((zeroLengthKind t = true ∧ rl ≠ 0 ∨ badQos t f = true) ∧ e = .raised .outOfRange) ∨
    ((t ≠ 0 ∧ t ≠ 15) ∧ ¬ (zeroLengthKind t = true ∧ rl ≠ 0) ∧ badQos t f = false ∧
      emit s (hdrByte t f :: encBytes rl.toNat) = .error e) := by
  simp only [fenc, bind_eq_error, check_eq_ok, check_eq_error] at h
  rcases h with ⟨h1, rfl⟩ | ⟨_, h1, ⟨h2, rfl⟩ | ⟨_, h2, ⟨h3, rfl⟩ | ⟨_, h3, h⟩⟩⟩
  · exact .inl ⟨by tauto, rfl⟩
  · exact .inr (.inl ⟨.inl (by tauto), rfl⟩)
  · exact .inr (.inl ⟨.inr (by simpa using h3), rfl⟩)
  · exact .inr (.inr ⟨h1, h2, h3, h⟩)

/-! ### Decoders -/

theorem getb_eq_ok {s t : State} {r : Word} : getb s = .ok (t, r) ↔
    s.inWin 1 ∧ s.cur.toNat < s.params.bufSize ∧
      t = { s with val := (s.byteAt s.cur.toNat).zeroExtend 32 }.advance 1 ∧ r = (s.byteAt s.cur.toNat).zeroExtend 32 := by
  simp only [getb, bind_eq_ok, check_eq_ok, memByte_eq_ok, pure_eq_ok, Except.ok.injEq, Prod.mk.injEq, setReg_val]
  constructor
  · rintro ⟨_, h, _, ⟨h', rfl⟩, rfl, rfl⟩
    exact ⟨h, h', rfl, rfl⟩
  · rintro ⟨h, h', rfl, rfl⟩
    exact ⟨(), h, _, ⟨h', rfl⟩, rfl, rfl⟩

theorem getb_eq_error {s : State} {e : Stop} (h : getb s = .error e) :
    (¬ s.inWin 1 ∧ e = .raised .truncated) ∨
    (s.inWin 1 ∧ s.params.bufSize ≤ s.cur.toNat ∧ ∃ a, e = .fault (.outsideBuffer a)) := by
  simp only [getb, bind_eq_error, check_eq_ok, check_eq_error, memByte_eq_error, pure_eq_ok] at h
  rcases h with h | ⟨_, h, ⟨h', rfl⟩ | ⟨_, _, h'⟩⟩
  · exact .inl h
  · exact .inr ⟨h, h', _, rfl⟩
  · exact nomatch h'

theorem rd16_eq_ok {s t : State} {r : Word} : rd16 s = .ok (t, r) ↔
    s.inWin 2 ∧ s.cur.toNat + 1 < s.params.bufSize ∧
      t = { s with val := word (be16 (s.byteAt s.cur.toNat) (s.byteAt (s.cur.toNat + 1))) }.advance 2 ∧
      r = word (be16 (s.byteAt s.cur.toNat) (s.byteAt (s.cur.toNat + 1))) := by
  simp only [rd16, bind_eq_ok, check_eq_ok, memBe16_eq_ok, pure_eq_ok, Except.ok.injEq, Prod.mk.injEq, setReg_val]
  constructor
  · rintro ⟨_, h, _, ⟨h', rfl⟩, rfl, rfl⟩
    exact ⟨h, h', rfl, rfl⟩
  · rintro ⟨h, h', rfl, rfl⟩
    exact ⟨(), h, _, ⟨h', rfl⟩, rfl, rfl⟩

theorem rd16_eq_error {s : State} {e : Stop} (h : rd16 s = .error e) :
    (¬ s.inWin 2 ∧ e = .raised .truncated) ∨
    (s.inWin 2 ∧ s.params.bufSize ≤ s.cur.toNat + 1 ∧ ∃ a, e = .fault (.outsideBuffer a)) := by
  simp only [rd16, bind_eq_error, check_eq_ok, check_eq_error, pure_eq_ok] at h
  rcases h with h | ⟨_, h, h' | ⟨_, _, h'⟩⟩
  · exact .inl h
  · exact .inr ⟨h, memBe16_eq_error h'⟩
  · exact nomatch h'

/-- The length a string at the cursor declares (R72). -/
def State.declared (s : State) : Nat := be16 (s.byteAt s.cur.toNat) (s.byteAt (s.cur.toNat + 1))

theorem sdec_eq_ok {s t : State} {r : Word} : sdec s = .ok (t, r) ↔
    s.cur.toNat + 1 < s.params.bufSize ∧ s.inWin (2 + s.declared) ∧
      t = { s with soff := word (s.cur.toNat + 2), slen := word s.declared }.advance (2 + s.declared) ∧
      r = word s.declared := by
  simp only [sdec, bind_eq_ok, check_eq_ok, memBe16_eq_ok, pure_eq_ok, Except.ok.injEq, Prod.mk.injEq, setReg_soff,
    setReg_slen]
  constructor
  · rintro ⟨_, h, _, ⟨h', rfl⟩, _, h'', rfl, rfl⟩
    exact ⟨h', h'', rfl, rfl⟩
  · rintro ⟨h', h'', rfl, rfl⟩
    exact ⟨(), by simp only [State.inWin] at h'' ⊢; omega, _, ⟨h', rfl⟩, (), h'', rfl, rfl⟩

theorem sdec_eq_error {s : State} {e : Stop} (h : sdec s = .error e) :
    e = .raised .truncated ∨
    (s.inWin 2 ∧ s.params.bufSize ≤ s.cur.toNat + 1 ∧ ∃ a, e = .fault (.outsideBuffer a)) := by
  simp only [sdec, bind_eq_error, check_eq_ok, check_eq_error, pure_eq_ok] at h
  rcases h with h | ⟨_, h, h' | ⟨_, _, h' | ⟨_, _, h'⟩⟩⟩
  · exact .inl h.2
  · exact .inr ⟨h, memBe16_eq_error h'⟩
  · exact .inl h'.2
  · exact nomatch h'

theorem vdec_eq_ok {s t : State} {r : Word} (h : vdec s = .ok (t, r)) :
    ∃ w n, varDec s s.cur.toNat s.wend.toNat = .ok (w, n) ∧ t = { s with val := word w }.advance n ∧ r = word w := by
  simp only [vdec, bind_eq_ok, pure_eq_ok, Except.ok.injEq, Prod.mk.injEq, setReg_val] at h
  obtain ⟨⟨w, n⟩, h, rfl, rfl⟩ := h
  exact ⟨w, n, h, rfl, rfl⟩

theorem vdec_of_ok {s : State} {w n : Nat} (h : varDec s s.cur.toNat s.wend.toNat = .ok (w, n)) :
    vdec s = .ok ({ s with val := word w }.advance n, word w) := by
  simp [vdec, h]

theorem vdec_eq_error {s : State} {e : Stop} : vdec s = .error e ↔ varDec s s.cur.toNat s.wend.toNat = .error e := by
  simp only [vdec, bind_eq_error, pure_eq_ok]
  constructor
  · rintro (h | ⟨_, _, h⟩)
    · exact h
    · exact nomatch h
  · exact .inl

theorem headerByte_eq_ok {s : State} {e : Nibble} {b : Byte} : headerByte s e = .ok b ↔
    s.inWin 1 ∧ s.cur.toNat < s.params.bufSize ∧ b = s.byteAt s.cur.toNat ∧ ¬ (e ≠ 0 ∧ hdrType b ≠ e) ∧
      validType (hdrType b) = true ∧ badQos (hdrType b) (hdrFlags b) = false := by
  simp only [headerByte, bind_eq_ok, check_eq_ok, memByte_eq_ok, pure_eq_ok, Except.ok.injEq]
  constructor
  · rintro ⟨_, h, _, ⟨h', rfl⟩, _, h1, _, h2, _, h3, rfl⟩
    exact ⟨h, h', rfl, h1, h2, h3⟩
  · rintro ⟨h, h', rfl, h1, h2, h3⟩
    exact ⟨(), h, _, ⟨h', rfl⟩, (), h1, (), h2, (), h3, rfl⟩

theorem headerByte_eq_error {s : State} {e : Nibble} {x : Stop} (h : headerByte s e = .error x) :
    x = .raised .truncated ∨ x = .raised .wrongPacketType ∨ x = .raised .malformed ∨
    (s.inWin 1 ∧ s.params.bufSize ≤ s.cur.toNat ∧ ∃ a, x = .fault (.outsideBuffer a)) := by
  simp only [headerByte, bind_eq_error, check_eq_ok, check_eq_error, memByte_eq_error, pure_eq_ok] at h
  rcases h with ⟨_, h⟩ | ⟨_, h, ⟨h', rfl⟩ | ⟨_, _, ⟨_, h⟩ | ⟨_, _, ⟨_, h⟩ | ⟨_, _, ⟨_, h⟩ | ⟨_, _, h⟩⟩⟩⟩⟩
  · exact .inl h
  · exact .inr (.inr (.inr ⟨h, h', _, rfl⟩))
  · exact .inr (.inl h)
  · exact .inr (.inr (.inl h))
  · exact .inr (.inr (.inl h))
  · exact nomatch h

theorem hdec_eq_ok {s t : State} {e : Nibble} {r : Word} : hdec e s = .ok (t, r) ↔
    e ≠ 15 ∧ ∃ b, headerByte s e = .ok b ∧ t = { s with hdr := b.zeroExtend 32 }.advance 1 ∧ r = b.zeroExtend 32 := by
  simp only [hdec, bind_eq_ok, check_eq_ok, pure_eq_ok, Except.ok.injEq, Prod.mk.injEq, setReg_hdr]
  constructor
  · rintro ⟨_, h, b, hb, rfl, rfl⟩
    exact ⟨h, b, hb, rfl, rfl⟩
  · rintro ⟨h, b, hb, rfl, rfl⟩
    exact ⟨(), h, b, hb, rfl, rfl⟩

theorem hdec_eq_error {s : State} {e : Nibble} {x : Stop} : hdec e s = .error x ↔
    (e = 15 ∧ x = .raised .illegalCommand) ∨ (e ≠ 15 ∧ headerByte s e = .error x) := by
  simp [hdec, bind_eq_error, check_eq_ok, check_eq_error]

theorem fdec_eq_ok {s t : State} {e : Nibble} {r : Word} : fdec e s = .ok (t, r) ↔
    e ≠ 15 ∧ ∃ b w n, headerByte s e = .ok b ∧ varDec s (s.cur.toNat + 1) s.wend.toNat = .ok (w, n) ∧
      ¬ (zeroLengthKind (hdrType b) = true ∧ w ≠ 0) ∧ s.cur.toNat + 1 + n + w ≤ s.wend.toNat ∧
      t = s.enterFrame b w n ∧ r = word w := by
  simp only [fdec, bind_eq_ok, check_eq_ok, pure_eq_ok, Except.ok.injEq, Prod.mk.injEq]
  constructor
  · rintro ⟨_, h, b, hb, ⟨w, n⟩, hv, _, h1, _, h2, rfl, rfl⟩
    exact ⟨h, b, w, n, hb, hv, h1, h2, rfl, rfl⟩
  · rintro ⟨h, b, w, n, hb, hv, h1, h2, rfl, rfl⟩
    exact ⟨(), h, b, hb, ⟨w, n⟩, hv, (), h1, (), h2, rfl, rfl⟩

theorem fdec_eq_error {s : State} {e : Nibble} {x : Stop} (h : fdec e s = .error x) :
    (e = 15 ∧ x = .raised .illegalCommand) ∨ (e ≠ 15 ∧ headerByte s e = .error x) ∨
    varDec s (s.cur.toNat + 1) s.wend.toNat = .error x ∨ x = .raised .malformed ∨ x = .raised .truncated := by
  simp only [fdec, bind_eq_error, check_eq_ok, check_eq_error, pure_eq_ok, ne_eq, not_not] at h
  rcases h with h | ⟨_, h, hb | ⟨_, _, hv | ⟨_, _, h | ⟨_, _, h | ⟨_, _, h⟩⟩⟩⟩⟩
  · exact .inl h
  · exact .inr (.inl ⟨h, hb⟩)
  · exact .inr (.inr (.inl hv))
  · exact .inr (.inr (.inr (.inl h.2)))
  · exact .inr (.inr (.inr (.inr h.2)))
  · exact nomatch h

/-! ### How a command stops -/

theorem emit_raised {s : State} {bs : List Byte} {c : Status} (h : emit s bs = .error (.raised c)) :
    c = .bufferTooShort := by
  rcases emit_eq_error h with ⟨_, h⟩ | ⟨_, _, _, h⟩
  · cases h; rfl
  · exact nomatch h

/-- What a command's pseudocode can raise, and which command raises it (60_exceptions.md R100). -/
theorem body_raised {i : Instr} {s : State} {c : Status} (h : body i s = .error (.raised c)) :
    (c = .truncated ∧ i.opcode ∈ [Opcode.vdec, .sdec, .rd16, .hdec, .fdec, .getb]) ∨
    (c = .malformed ∧ i.opcode ∈ [Opcode.vdec, .hdec, .fdec]) ∨
    (c = .wrongPacketType ∧ i.opcode ∈ [Opcode.hdec, .fdec]) ∨
    (c = .bufferTooShort ∧ i.opcode ∈ [Opcode.venc, .senc, .wr16, .fenc, .putb]) ∨
    (c = .outOfRange ∧ i.opcode ∈ [Opcode.venc, .senc, .wr16, .fenc, .putb, .wrreg]) ∨
    (c = .illegalCommand ∧ i.wf = false) := by
  cases i <;> simp only [body] at h
  case nop | rdreg | fexit => exact nomatch h
  case wrreg =>
    rcases wrreg_eq_error h with ⟨_, _, h⟩ | ⟨hw, h⟩ <;> cases h <;> simp [Instr.opcode, Instr.wf, *]
  case venc =>
    rcases venc_eq_error.1 h with ⟨_, h⟩ | ⟨_, h⟩
    · cases h; simp [Instr.opcode]
    · cases emit_raised h; simp [Instr.opcode]
  case vdec =>
    rcases varDecFrom_eq_error (vdec_eq_error.1 h) with h | h | ⟨_, _, h⟩ <;> cases h <;> simp [Instr.opcode]
  case senc =>
    rcases senc_eq_error h with ⟨_, h⟩ | ⟨_, _, h⟩
    · cases h; simp [Instr.opcode]
    · cases emit_raised h; simp [Instr.opcode]
  case sdec =>
    rcases sdec_eq_error h with h | ⟨_, _, _, h⟩ <;> cases h; simp [Instr.opcode]
  case wr16 =>
    rcases wr16_eq_error.1 h with ⟨_, h⟩ | ⟨_, h⟩
    · cases h; simp [Instr.opcode]
    · cases emit_raised h; simp [Instr.opcode]
  case rd16 =>
    rcases rd16_eq_error h with ⟨_, h⟩ | ⟨_, _, _, h⟩ <;> cases h; simp [Instr.opcode]
  case fenc =>
    rcases fenc_eq_error h with ⟨ht, h⟩ | ⟨_, h⟩ | ⟨_, _, _, h⟩
    · cases h; rcases ht with rfl | rfl <;> simp [Instr.wf]
    · cases h; simp [Instr.opcode]
    · cases emit_raised h; simp [Instr.opcode]
  case fdec =>
    rcases fdec_eq_error h with ⟨rfl, h⟩ | ⟨_, h⟩ | h | h | h
    · cases h; simp [Instr.wf]
    · rcases headerByte_eq_error h with h | h | h | ⟨_, _, _, h⟩ <;> cases h <;> simp [Instr.opcode]
    · rcases varDecFrom_eq_error h with h | h | ⟨_, _, h⟩ <;> cases h <;> simp [Instr.opcode]
    · cases h; simp [Instr.opcode]
    · cases h; simp [Instr.opcode]
  case hdec =>
    rcases hdec_eq_error.1 h with ⟨rfl, h⟩ | ⟨_, h⟩
    · cases h; simp [Instr.wf]
    · rcases headerByte_eq_error h with h | h | h | ⟨_, _, _, h⟩ <;> cases h <;> simp [Instr.opcode]
  case putb =>
    rcases putb_eq_error.1 h with ⟨_, h⟩ | ⟨_, h⟩
    · cases h; simp [Instr.opcode]
    · cases emit_raised h; simp [Instr.opcode]
  case getb =>
    rcases getb_eq_error h with ⟨_, h⟩ | ⟨_, _, _, h⟩ <;> cases h; simp [Instr.opcode]

theorem body_raised_ne {i : Instr} {s : State} {c : Status} (h : body i s = .error (.raised c)) :
    c ≠ .ok ∧ c ≠ .capacityExceeded := by
  rcases body_raised h with ⟨rfl, _⟩ | ⟨rfl, _⟩ | ⟨rfl, _⟩ | ⟨rfl, _⟩ | ⟨rfl, _⟩ | ⟨rfl, _⟩ <;> simp

/-- A command reaches a byte outside BUF only where END is above BUF_SIZE (R32, R27; log entry 10). -/
theorem body_fault {i : Instr} {s : State} {f : Fault} (h : body i s = .error (.fault f)) :
    s.params.bufSize < s.wend.toNat := by
  have emitf : ∀ {bs : List Byte}, emit s bs = .error (.fault f) → s.params.bufSize < s.wend.toNat := by
    intro bs h
    rcases emit_eq_error h with ⟨_, h⟩ | ⟨h1, h2, _, h⟩
    · cases h
    · simp only [State.inWin] at h1; omega
  have hdrf : ∀ {e}, headerByte s e = .error (.fault f) → s.params.bufSize < s.wend.toNat := by
    intro e h
    rcases headerByte_eq_error h with h | h | h | ⟨h1, h2, _, h⟩ <;> cases h
    simp only [State.inWin] at h1; omega
  have varf : ∀ {p}, varDec s p s.wend.toNat = .error (.fault f) → s.params.bufSize < s.wend.toNat := by
    intro p h
    rcases varDecFrom_eq_error h with h | h | ⟨h1, _, h⟩ <;> cases h
    exact h1
  cases i <;> simp only [body] at h
  case nop | rdreg | fexit => exact nomatch h
  case wrreg => rcases wrreg_eq_error h with ⟨_, _, h⟩ | ⟨_, h⟩ <;> exact nomatch h
  case venc =>
    rcases venc_eq_error.1 h with ⟨_, h⟩ | ⟨_, h⟩
    · cases h
    · exact emitf h
  case vdec => exact varf (vdec_eq_error.1 h)
  case senc =>
    rcases senc_eq_error h with ⟨_, h⟩ | ⟨_, _, h⟩
    · cases h
    · exact emitf h
  case sdec =>
    rcases sdec_eq_error h with h | ⟨h1, _, _, h⟩
    · exact nomatch h
    · simp only [State.inWin] at h1; omega
  case wr16 =>
    rcases wr16_eq_error.1 h with ⟨_, h⟩ | ⟨_, h⟩
    · cases h
    · exact emitf h
  case rd16 =>
    rcases rd16_eq_error h with ⟨_, h⟩ | ⟨h1, _, _, h⟩
    · exact nomatch h
    · simp only [State.inWin] at h1; omega
  case fenc =>
    rcases fenc_eq_error h with ⟨ht, h⟩ | ⟨_, h⟩ | ⟨_, _, _, h⟩
    · cases h
    · cases h
    · exact emitf h
  case fdec =>
    rcases fdec_eq_error h with ⟨rfl, h⟩ | ⟨_, h⟩ | h | h | h
    · cases h
    · exact hdrf h
    · exact varf h
    · cases h
    · cases h
  case hdec =>
    rcases hdec_eq_error.1 h with ⟨rfl, h⟩ | ⟨_, h⟩
    · cases h
    · exact hdrf h
  case putb =>
    rcases putb_eq_error.1 h with ⟨_, h⟩ | ⟨_, h⟩
    · cases h
    · exact emitf h
  case getb =>
    rcases getb_eq_error h with ⟨_, h⟩ | ⟨h1, _, _, h⟩
    · exact nomatch h
    · simp only [State.inWin] at h1; omega

end Sys2Proof.Machine
end

