-- ==== Sys2Proof/Laws/Commands.lean ====
section
/-! SUPPORT. What every command can do, said once over all of them: what it writes to BUF, what it never changes, how a request ends. -/

namespace Sys2Proof.Machine

/-- A next state that answers OK is what the pseudocode committed. -/
theorem exec_committed {i : Instr} {s t : State} {r : Word} (h : exec i s = .next t) (hr : t.response = some ⟨.ok, r⟩) :
    ∃ u, body i s = .ok (u, r) ∧ t = u.respond .ok r := 
  exec_next_ok h hr fun _ hc => (body_raised_ne hc).1

/-- What a command that succeeds does to BUF: it writes bytes at the cursor, inside the window, or it writes none. -/
theorem body_cases {i : Instr} {s u : State} {r : Word} (h : body i s = .ok (u, r)) :
    (∃ bs, writesNothing i = false ∧ movesBytes i = true ∧ 1 ≤ bs.length ∧ bs.length ≤ 65537 ∧
      s.inWin bs.length ∧ s.cur.toNat + bs.length ≤ s.params.bufSize ∧ u = s.emitted bs ∧ r = word bs.length) ∨
    (writesNothing i = true ∧ u.mem = s.mem) := by
  have e : ∀ {bs : List Byte}, emit s bs = .ok (u, r) → s.inWin bs.length ∧
      s.cur.toNat + bs.length ≤ s.params.bufSize ∧ u = s.emitted bs ∧ r = word bs.length := fun h => emit_eq_ok.1 h
  cases i <;> simp only [body] at h
  case nop | rdreg | fexit => cases h; exact .inr ⟨rfl, rfl⟩
  case wrreg r d =>
    obtain ⟨_, ⟨hr, _, rfl⟩ | ⟨rfl, rfl⟩⟩ := wrreg_eq_ok h
    · exact .inr ⟨rfl, by simp⟩
    · exact .inr ⟨rfl, rfl⟩
  case venc v => 
    obtain ⟨_, h⟩ := venc_eq_ok.1 h
    exact .inl ⟨_, rfl, rfl, by simpa using (encLen_pos _).1, by have := (encLen_pos v.toNat).2; simp; omega, e h⟩
  case vdec => obtain ⟨_, _, _, rfl, _⟩ := vdec_eq_ok h; exact .inr ⟨rfl, rfl⟩
  case senc => 
    obtain ⟨_, _, h⟩ := senc_eq_ok.1 h
    exact .inl ⟨_, rfl, rfl, by rw [strBytes_length]; omega, by rw [strBytes_length, bytesAt_length]; omega, e h⟩
  case sdec => obtain ⟨_, _, rfl, _⟩ := sdec_eq_ok.1 h; exact .inr ⟨rfl, rfl⟩
  case wr16 => obtain ⟨_, h⟩ := wr16_eq_ok.1 h; exact .inl ⟨_, rfl, rfl, by simp [be16Bytes], by simp [be16Bytes], e h⟩
  case rd16 => obtain ⟨_, _, rfl, _⟩ := rd16_eq_ok.1 h; exact .inr ⟨rfl, rfl⟩
  case fenc t f rl => obtain ⟨_, _, _, h⟩ := fenc_eq_ok.1 h; exact .inl ⟨_, rfl, rfl, by simp, by have := (encLen_pos rl.toNat).2; simp; omega, e h⟩
  case fdec => obtain ⟨_, _, _, _, _, _, _, _, rfl, _⟩ := fdec_eq_ok.1 h; exact .inr ⟨rfl, rfl⟩
  case hdec => obtain ⟨_, _, _, rfl, _⟩ := hdec_eq_ok.1 h; exact .inr ⟨rfl, rfl⟩
  case putb => obtain ⟨_, h⟩ := putb_eq_ok.1 h; exact .inl ⟨_, rfl, rfl, by simp, by simp, e h⟩
  case getb => obtain ⟨_, _, rfl, _⟩ := getb_eq_ok.1 h; exact .inr ⟨rfl, rfl⟩

/-- What no command changes. -/
theorem body_rest {i : Instr} {s u : State} {r : Word} (h : body i s = .ok (u, r)) :
    u.params = s.params ∧ u.host = s.host ∧ u.draw = s.draw ∧ u.response = s.response := by
  cases i <;> simp only [body] at h
  case nop | rdreg | fexit => cases h; exact ⟨rfl, rfl, rfl, rfl⟩
  case wrreg r d =>
    obtain ⟨_, ⟨hr, _, rfl⟩ | ⟨rfl, rfl⟩⟩ := wrreg_eq_ok h <;> simp
  case venc => obtain ⟨_, h⟩ := venc_eq_ok.1 h; obtain ⟨_, _, rfl, _⟩ := emit_eq_ok.1 h; exact ⟨rfl, rfl, rfl, rfl⟩
  case vdec => obtain ⟨_, _, _, rfl, _⟩ := vdec_eq_ok h; exact ⟨rfl, rfl, rfl, rfl⟩
  case senc => obtain ⟨_, _, h⟩ := senc_eq_ok.1 h; obtain ⟨_, _, rfl, _⟩ := emit_eq_ok.1 h; exact ⟨rfl, rfl, rfl, rfl⟩
  case sdec => obtain ⟨_, _, rfl, _⟩ := sdec_eq_ok.1 h; exact ⟨rfl, rfl, rfl, rfl⟩
  case wr16 => obtain ⟨_, h⟩ := wr16_eq_ok.1 h; obtain ⟨_, _, rfl, _⟩ := emit_eq_ok.1 h; exact ⟨rfl, rfl, rfl, rfl⟩
  case rd16 => obtain ⟨_, _, rfl, _⟩ := rd16_eq_ok.1 h; exact ⟨rfl, rfl, rfl, rfl⟩
  case fenc => obtain ⟨_, _, _, h⟩ := fenc_eq_ok.1 h; obtain ⟨_, _, rfl, _⟩ := emit_eq_ok.1 h; exact ⟨rfl, rfl, rfl, rfl⟩
  case fdec => obtain ⟨_, _, _, _, _, _, _, _, rfl, _⟩ := fdec_eq_ok.1 h; exact ⟨rfl, rfl, rfl, rfl⟩
  case hdec => obtain ⟨_, _, _, rfl, _⟩ := hdec_eq_ok.1 h; exact ⟨rfl, rfl, rfl, rfl⟩
  case putb => obtain ⟨_, h⟩ := putb_eq_ok.1 h; obtain ⟨_, _, rfl, _⟩ := emit_eq_ok.1 h; exact ⟨rfl, rfl, rfl, rfl⟩
  case getb => obtain ⟨_, _, rfl, _⟩ := getb_eq_ok.1 h; exact ⟨rfl, rfl, rfl, rfl⟩

/-- No command that succeeds changes the first-error registers, but WRREG FERR, which clears them. -/
theorem body_ferr {i : Instr} {s u : State} {r} (h : body i s = .ok (u, r)) :
    u.ferr = s.ferr ∧ u.fpos = s.fpos ∨ ∃ d, i = .wrreg .ferr d ∧ u.ferr = 0 ∧ u.fpos = 0 := by
  cases i <;> simp only [body] at h
  case nop | rdreg | fexit => cases h; exact .inl ⟨rfl, rfl⟩
  case wrreg r d =>
    obtain ⟨_, ⟨hr, _, rfl⟩ | ⟨rfl, rfl⟩⟩ := wrreg_eq_ok h
    · simp at hr
      rcases hr with rfl | rfl | rfl | rfl <;> exact .inl ⟨rfl, rfl⟩
    · exact .inr ⟨d, rfl, rfl, rfl⟩
  case venc => obtain ⟨_, h⟩ := venc_eq_ok.1 h; obtain ⟨_, _, rfl, _⟩ := emit_eq_ok.1 h; exact .inl ⟨rfl, rfl⟩
  case vdec => obtain ⟨_, _, _, rfl, _⟩ := vdec_eq_ok h; exact .inl ⟨rfl, rfl⟩
  case senc => obtain ⟨_, _, h⟩ := senc_eq_ok.1 h; obtain ⟨_, _, rfl, _⟩ := emit_eq_ok.1 h; exact .inl ⟨rfl, rfl⟩
  case sdec => obtain ⟨_, _, rfl, _⟩ := sdec_eq_ok.1 h; exact .inl ⟨rfl, rfl⟩
  case wr16 => obtain ⟨_, h⟩ := wr16_eq_ok.1 h; obtain ⟨_, _, rfl, _⟩ := emit_eq_ok.1 h; exact .inl ⟨rfl, rfl⟩
  case rd16 => obtain ⟨_, _, rfl, _⟩ := rd16_eq_ok.1 h; exact .inl ⟨rfl, rfl⟩
  case fenc => obtain ⟨_, _, _, h⟩ := fenc_eq_ok.1 h; obtain ⟨_, _, rfl, _⟩ := emit_eq_ok.1 h; exact .inl ⟨rfl, rfl⟩
  case fdec => obtain ⟨_, _, _, _, _, _, _, _, rfl, _⟩ := fdec_eq_ok.1 h; exact .inl ⟨rfl, rfl⟩
  case hdec => obtain ⟨_, _, _, rfl, _⟩ := hdec_eq_ok.1 h; exact .inl ⟨rfl, rfl⟩
  case putb => obtain ⟨_, h⟩ := putb_eq_ok.1 h; obtain ⟨_, _, rfl, _⟩ := emit_eq_ok.1 h; exact .inl ⟨rfl, rfl⟩
  case getb => obtain ⟨_, _, rfl, _⟩ := getb_eq_ok.1 h; exact .inl ⟨rfl, rfl⟩

/-- A command whose pseudocode writes bytes at the cursor and answers their number. -/
theorem writesAtCursor_of_emitted {i : Instr} {s : State} {bs : List Byte} (h : body i s = .ok (s.emitted bs, word bs.length)) :
    WritesAtCursor i s bs :=
  ⟨_, exec_ok h, rfl, fun k hk => byteAt_storeAll s s.cur.toNat k bs hk, fun a ha => byteAt_storeAll_other s _ a bs ha⟩

/-- Everything execute can do when it gives a next state: an illegal request fails, a command fails, or it succeeds. -/
theorem execute_next {cmd data : Word} {s t : State} (h : execute cmd data s = .next t) :
  (∃ r, decode cmd data = .error r ∧ t = s.afterFailure .illegalCommand (opcOf cmd)) ∨
  (∃ i c, decode cmd data = .ok i ∧ body i s = .error (.raised c) ∧ t = s.afterFailure c i.opcode.byte) ∨
  (∃ i u r, decode cmd data = .ok i ∧ body i s = .ok (u, r) ∧ t = u.respond .ok r) := by
  unfold execute at h
  split at h
  · rename_i i hd
    rcases exec_eq_next.1 h with ⟨u, r, hb, ht⟩ | ⟨c, hb, ht⟩
    · exact .inr (.inr ⟨i, u, r, hd, hb, ht⟩)
    · exact .inr (.inl ⟨i, c, hd, hb, ht⟩)
  · rename_i e hd
    simp only [Host.Outcome.next.injEq, fail_eq] at h
    exact .inl ⟨e, hd, h.symm⟩


/-- A request that does not decode is illegal in every state (30_encoding.md R49, R50). -/
theorem alwaysIllegal_of_decode {cmd : Word} (h : ∀ d, ∃ r, decode cmd d = .error r) : AlwaysIllegal cmd := by
  intro d s
  obtain ⟨r, hr⟩ := h d
  have hb : BitVec.ofNat 8 (cmd.toNat % 256) = opcOf cmd := by
    apply BitVec.eq_of_toNat_eq
    simp [opcOf, BitVec.extractLsb'_toNat]
  rw [hb, execute, hr, fail_eq]

end Sys2Proof.Machine
end

