-- ==== Sys2Proof/Laws/Decode.lean ====
section
/-! SUPPORT. The fields of a CMD word, and the numbers of opcodes and registers, read back (30_encoding.md R45, R47). -/

namespace Sys2Proof

/-! ### Fields in numbers -/

theorem opcOf_toNat (cmd : Word) : (opcOf cmd).toNat = cmd.toNat % 256 := by
  simp [opcOf, BitVec.extractLsb'_toNat]

theorem selOf_toNat (cmd : Word) : (selOf cmd).toNat = cmd.toNat / 256 % 16 := by
  simp [selOf, BitVec.extractLsb'_toNat, Nat.shiftRight_eq_div_pow]

theorem rsvdOf_toNat (cmd : Word) : (rsvdOf cmd).toNat = cmd.toNat / 4096 := by
  have := cmd.isLt
  simp only [rsvdOf, BitVec.extractLsb'_toNat, Nat.shiftRight_eq_div_pow]
  omega

theorem cmdWord_toNat (sel : Nibble) (opc : Byte) : (cmdWord sel opc).toNat = sel.toNat * 256 + opc.toNat := by
  have h : ∀ s : Nibble, ∀ o : Byte, (cmdWord s o).toNat = s.toNat * 256 + o.toNat := by decide
  exact h sel opc

theorem fencFlags_toNat (data : Word) : (fencFlags data).toNat = data.toNat % 16 := by
  simp [fencFlags, BitVec.extractLsb'_toNat]

theorem fencLength_toNat (data : Word) : (fencLength data).toNat = data.toNat / 16 := by
  have := data.isLt
  simp only [fencLength, BitVec.extractLsb'_toNat, Nat.shiftRight_eq_div_pow]
  omega

theorem fencData_toNat (f : Nibble) (rl : BitVec 28) : (fencData f rl).toNat = rl.toNat * 16 + f.toNat := by
  have h : (fencData f rl).toNat = rl.toNat <<< 4 ||| f.toNat := BitVec.toNat_append rl f
  rw [h, ← Nat.shiftLeft_add_eq_or_of_lt f.isLt, Nat.shiftLeft_eq]

/-! ### Fields of an encoded word -/

@[simp] theorem opcOf_cmdWord (sel : Nibble) (opc : Byte) : opcOf (cmdWord sel opc) = opc := by
  apply BitVec.eq_of_toNat_eq
  have := opc.isLt
  rw [opcOf_toNat, cmdWord_toNat]
  omega

@[simp] theorem selOf_cmdWord (sel : Nibble) (opc : Byte) : selOf (cmdWord sel opc) = sel := by
  apply BitVec.eq_of_toNat_eq
  have := opc.isLt
  have := sel.isLt
  rw [selOf_toNat, cmdWord_toNat]
  omega

@[simp] theorem rsvdOf_cmdWord (sel : Nibble) (opc : Byte) : rsvdOf (cmdWord sel opc) = 0 := by
  apply BitVec.eq_of_toNat_eq
  have := opc.isLt
  have := sel.isLt
  rw [rsvdOf_toNat, cmdWord_toNat]
  simp only [BitVec.ofNat_eq_ofNat, BitVec.toNat_ofNat, Nat.zero_mod]
  omega

/-- A CMD word is its three fields. -/
theorem cmdWord_of_fields (cmd : Word) (h : rsvdOf cmd = 0) : cmdWord (selOf cmd) (opcOf cmd) = cmd := by
  apply BitVec.eq_of_toNat_eq
  have hr : cmd.toNat / 4096 = 0 := by rw [← rsvdOf_toNat, h]; rfl
  rw [cmdWord_toNat, selOf_toNat, opcOf_toNat]
  omega

@[simp] theorem fencFlags_fencData (f : Nibble) (rl : BitVec 28) : fencFlags (fencData f rl) = f := by
  apply BitVec.eq_of_toNat_eq
  have := f.isLt
  rw [fencFlags_toNat, fencData_toNat]
  omega

@[simp] theorem fencLength_fencData (f : Nibble) (rl : BitVec 28) : fencLength (fencData f rl) = rl := by
  apply BitVec.eq_of_toNat_eq
  have := f.isLt
  rw [fencLength_toNat, fencData_toNat]
  omega

theorem fencData_of_fields (data : Word) : fencData (fencFlags data) (fencLength data) = data := by
  apply BitVec.eq_of_toNat_eq
  rw [fencData_toNat, fencFlags_toNat, fencLength_toNat]
  omega

/-! ### Opcodes and registers -/

@[simp] theorem ofByte_byte (o : Opcode) : Opcode.ofByte o.byte = some o := by cases o <;> decide

theorem byte_of_ofByte {b : Byte} {o : Opcode} (h : Opcode.ofByte b = some o) : o.byte = b := by
  simpa using List.find?_some h

@[simp] theorem ofSel_sel (r : Reg) : Reg.ofSel r.sel = some r := by cases r <;> decide

theorem sel_of_ofSel {n : Nibble} {r : Reg} (h : Reg.ofSel n = some r) : r.sel = n := by
  simpa using List.find?_some h

/-! ### Decoding -/

/-- Everything a request that decodes is: RSVD 0, a known opcode, operands that opcode accepts. -/
theorem decode_eq_ok {cmd data : Word} {i : Instr} (h : decode cmd data = .ok i) :
    ∃ o : Opcode, rsvdOf cmd = 0 ∧ o.byte = opcOf cmd ∧ decodeOperands o (selOf cmd) data = .ok i := by
  unfold decode at h
  split at h
  · exact nomatch h
  · split at h
    · exact nomatch h
    · rename_i h1 _ o ho
      exact ⟨o, by simpa using h1, byte_of_ofByte ho, h⟩

/-- The operands an opcode accepts make a well-formed command of that opcode and SEL. -/
theorem decodeOperands_eq_ok {o : Opcode} {sel : Nibble} {data : Word} {i : Instr}
    (h : decodeOperands o sel data = .ok i) : i.opcode = o ∧ i.sel = sel ∧ i.wf = true := by
  cases o <;>
    simp only [decodeOperands, withoutSel, decodeWrreg, decodeRdreg, decodeFenc, decodeExpected] at h
  case wrreg =>
    split at h
    · exact nomatch h
    · rename_i r hr
      split at h
      · rename_i hw
        cases h
        exact ⟨rfl, sel_of_ofSel hr, hw⟩
      · exact nomatch h
  case rdreg =>
    split at h
    · exact nomatch h
    · rename_i r hr
      cases h
      exact ⟨rfl, sel_of_ofSel hr, rfl⟩
  all_goals
    split at h <;> cases h
    simp_all [Instr.opcode, Instr.sel, Instr.wf]

/-- A request that decodes has its command's opcode in OPC. -/
theorem decode_opcode {cmd data : Word} {i : Instr} (h : decode cmd data = .ok i) : i.opcode.byte = opcOf cmd := by
  obtain ⟨o, _, ho, h⟩ := decode_eq_ok h
  rw [(decodeOperands_eq_ok h).1, ho]

end Sys2Proof
end

