-- ==== Sys2Proof/Laws/PerInstr.lean ====
section
/-! SUPPORT. Facts about every command as syntax, one lemma per constructor of Instr. -/

namespace Sys2Proof.Laws

/-! ### EncodedFields: the CMD word of a command has its opcode in OPC, its SEL in SEL, and RSVD 0 (30_encoding.md R45, R47) -/

def EncodedFields.Statement (i : Instr) : Prop :=
  Opcode.ofByte (opcOf (encode i).1) = some i.opcode ∧ selOf (encode i).1 = i.sel ∧ rsvdOf (encode i).1 = 0

theorem EncodedFields.any (i : Instr) : EncodedFields.Statement i := by
  simp [EncodedFields.Statement, encode]

theorem EncodedFields.nop : EncodedFields.Statement .nop := EncodedFields.any _
theorem EncodedFields.wrreg (r : Reg) (d : Word) : EncodedFields.Statement (.wrreg r d) := EncodedFields.any _
theorem EncodedFields.rdreg (r : Reg) : EncodedFields.Statement (.rdreg r) := EncodedFields.any _
theorem EncodedFields.venc (v : Word) : EncodedFields.Statement (.venc v) := EncodedFields.any _
theorem EncodedFields.vdec : EncodedFields.Statement .vdec := EncodedFields.any _
theorem EncodedFields.senc (len : Word) : EncodedFields.Statement (.senc len) := EncodedFields.any _
theorem EncodedFields.sdec : EncodedFields.Statement .sdec := EncodedFields.any _
theorem EncodedFields.wr16 (w : Word) : EncodedFields.Statement (.wr16 w) := EncodedFields.any _
theorem EncodedFields.rd16 : EncodedFields.Statement .rd16 := EncodedFields.any _
theorem EncodedFields.fenc (t flags : Nibble) (rl : BitVec 28) : EncodedFields.Statement (.fenc t flags rl) :=
  EncodedFields.any _
theorem EncodedFields.fdec (e : Nibble) : EncodedFields.Statement (.fdec e) := EncodedFields.any _
theorem EncodedFields.hdec (e : Nibble) : EncodedFields.Statement (.hdec e) := EncodedFields.any _
theorem EncodedFields.fexit : EncodedFields.Statement .fexit := EncodedFields.any _
theorem EncodedFields.putb (d : Word) : EncodedFields.Statement (.putb d) := EncodedFields.any _
theorem EncodedFields.getb : EncodedFields.Statement .getb := EncodedFields.any _

end Sys2Proof.Laws
end

