-- ==== Sys2Proof/Tests/Slice0.lean ====
section
/-! SUPPORT. Tests: expected results are those of 95_test_vectors.md (the vector's name stands in the docstring) or are worked out by hand from the rule named. Then a witness for the hypotheses of every obligation. -/

namespace Sys2Proof.Tests

open Sys2Proof.Machine

/-! ### Helpers -/

/-- The reset state with these bytes at BUF[0..] and END given: the start state of the spec's vectors. -/
def withBytes (bs : List Byte) (wend : Word) : State :=
  { State.reset with mem := Memory.storeAll [] 0 bs, wend := wend }

/-- The same with P_STRICT_CANONICAL true. -/
def strictWithBytes (bs : List Byte) (wend : Word) : State :=
  { withBytes bs wend with params := { Params.standard with strict := true } }

/-- One step on a request. -/
def issued (cmd data : Word) (s : State) : Host.Outcome State Fault Refusal :=
  step { s with host := [.issue cmd data] }

/-- The step goes on, answers (c, r), and the next state satisfies `p`. -/
def Answers (o : Host.Outcome State Fault Refusal) (c : Status) (r : Word) (p : State → Prop) : Prop :=
  ∃ t, o = .next t ∧ t.response = some ⟨c, r⟩ ∧ p t

/-! ### WellFormed refuses ill-formed terms (R49 d, e, f) -/

theorem test_wf_wrreg_readonly : (Instr.wrreg .val 0).wf = false := by decide
theorem test_wf_wrreg_fpos : (Instr.wrreg .fpos 0).wf = false := by decide
theorem test_wf_wrreg_ferr : (Instr.wrreg .ferr 0).wf = true := by decide
theorem test_wf_fenc_type0 : (Instr.fenc 0 0 0).wf = false := by decide
theorem test_wf_fenc_type15 : (Instr.fenc 15 0 0).wf = false := by decide
theorem test_wf_fdec_type15 : (Instr.fdec 15).wf = false := by decide
theorem test_wf_hdec_type15 : (Instr.hdec 15).wf = false := by decide

/-! ### Decoding: each word written out from R45 (RSVD 20 bits, SEL 4 bits, OPC 8 bits) and R47 -/

theorem test_decode_nop : decode 0b00000000000000000000000000000000 0x12345678 = .ok .nop := by decide
theorem test_decode_wrreg : decode 0b00000000000000000000001100000001 16 = .ok (.wrreg .src 16) := by decide
theorem test_decode_rdreg : decode 0b00000000000000000000101000000010 0 = .ok (.rdreg .fpos) := by decide
theorem test_decode_venc : decode 0b00000000000000000000000000010000 321 = .ok (.venc 321) := by decide
theorem test_decode_vdec : decode 0b00000000000000000000000000010001 0 = .ok .vdec := by decide
theorem test_decode_senc : decode 0b00000000000000000000000000100000 3 = .ok (.senc 3) := by decide
theorem test_decode_sdec : decode 0b00000000000000000000000000100001 0 = .ok .sdec := by decide
theorem test_decode_wr16 : decode 0b00000000000000000000000000100010 42 = .ok (.wr16 42) := by decide
theorem test_decode_rd16 : decode 0b00000000000000000000000000100011 0 = .ok .rd16 := by decide
theorem test_decode_fenc :
    decode 0b00000000000000000000100000110000 0xFFFFFFF2 = .ok (.fenc 8 2 268435455) := by decide
theorem test_decode_fdec : decode 0b00000000000000000000111000110001 0 = .ok (.fdec 14) := by decide
theorem test_decode_hdec : decode 0b00000000000000000000001100110010 0 = .ok (.hdec 3) := by decide
theorem test_decode_fexit : decode 0b00000000000000000000000000110011 0 = .ok .fexit := by decide
theorem test_decode_putb : decode 0b00000000000000000000000001000000 0x2F = .ok (.putb 0x2F) := by decide
theorem test_decode_getb : decode 0b00000000000000000000000001000001 0 = .ok .getb := by decide

/-- R49 (a) to (f), each clause by its name; V-C3, V-C4, V-C5, V-C7, V-C8, V-C9, V-G12, V-G13, V-H17. -/
theorem test_decode_rejects :
    decode 0x00000003 0 = .error .reservedOpcode ∧ decode 0x00001000 0 = .error .reservedBits ∧
    decode 0x00000100 0 = .error .unusedSel ∧ decode 0x00000B01 0 = .error .reservedRegister ∧
    decode 0x00000B02 0 = .error .reservedRegister ∧ decode 0x00000401 1 = .error .readOnlyRegister ∧
    decode 0x00000030 0 = .error .reservedType ∧ decode 0x00000F30 0 = .error .reservedType ∧
    decode 0x00000F31 0 = .error .reservedExpectedType ∧ decode 0x00000F32 0 = .error .reservedExpectedType ∧
    decode 0x80000000 0 = .error .reservedBits := by decide

/-- CMD is the low word and DATA the high word of the opcode table's numbering; no DATA given is DATA 0. -/
theorem test_decodeTableWord :
    decodeTableWord 64 0x0000014100000010 = some (.venc 321) ∧ decodeTableWord 32 0x00000010 = some (.venc 0) ∧
    decodeTableWord 32 0x00000030 = none ∧ decodeTableWord 32 0x00000130 = some (.fenc 1 0 0) := by decide

/-- The very next step runs the request that withFetchWord places. -/
theorem test_withFetchWord (s : State) :
    step (s.withFetchWord 64 0x0000014100000010) = exec (.venc 321) s := rfl

/-! ### One step per command -/

/-- V-C15. -/
theorem test_nop : Answers (issued 0x00000000 0x12345678 (withBytes [] 4)) .ok 0
    (fun t => t.cur = 0 ∧ t.wend = 4) := ⟨_, rfl, by decide, by decide⟩

/-- V-C1, with BUF_SIZE 32: CUR = BUF_SIZE is legal. -/
theorem test_wrreg : Answers (issued 0x00000001 32 (withBytes [] 4)) .ok 0 (fun t => t.cur = 32 ∧ t.wend = 4) :=
  ⟨_, rfl, by decide, by decide⟩

/-- V-C2, with BUF_SIZE 32: one above fails and is captured. -/
theorem test_wrreg_range : Answers (issued 0x00000101 33 (withBytes [] 4)) .outOfRange 0
    (fun t => t.wend = 4 ∧ t.ferr = 0x0106 ∧ t.fpos = 0) := ⟨_, rfl, by decide, by decide⟩

/-- V-C14. -/
theorem test_rdreg : Answers (issued 0x00000A02 0 { withBytes [] 4 with ferr := 0x0106, fpos := 16 }) .ok 16
    (fun t => t.ferr = 0x0106 ∧ t.fpos = 16) := ⟨_, rfl, by decide, by decide⟩

/-- V-E4. -/
theorem test_venc : Answers (issued 0x00000010 321 (withBytes [] 8)) .ok 2
    (fun t => t.bytesAt 0 2 = [0xC1, 0x02] ∧ t.cur = 2 ∧ t.len = 2) := ⟨_, rfl, by decide, by decide⟩

/-- V-E18: the range is checked before the window. -/
theorem test_venc_range : Answers (issued 0x00000010 268435456 (withBytes [] 0)) .outOfRange 0
    (fun t => t.cur = 0 ∧ t.mem = [] ∧ t.ferr = 0x1006) := ⟨_, rfl, by decide, by decide⟩

/-- V-D8: four groups, least significant first. -/
theorem test_vdec : Answers (issued 0x00000011 0 (withBytes [0x80, 0x80, 0x80, 0x01] 4)) .ok 2097152
    (fun t => t.val = 2097152 ∧ t.len = 4 ∧ t.cur = 4) := ⟨_, rfl, by decide, by decide⟩

/-- V-D15 and V-D16: the same bytes, lenient and strict. -/
theorem test_vdec_strict :
    Answers (issued 0x00000011 0 (withBytes [0x80, 0x00] 2)) .ok 0 (fun t => t.len = 2) ∧
    Answers (issued 0x00000011 0 (strictWithBytes [0x80, 0x00] 2)) .malformed 0 (fun t => t.cur = 0) :=
  ⟨⟨_, rfl, by decide, by decide⟩, ⟨_, rfl, by decide, by decide⟩⟩

/-- V-S7: the source overlaps the destination and is read first. -/
theorem test_senc : Answers (issued 0x00000020 2 (withBytes [0xAA, 0xBB] 8)) .ok 4
    (fun t => t.bytesAt 0 4 = [0x00, 0x02, 0xAA, 0xBB] ∧ t.cur = 4) := ⟨_, rfl, by decide, by decide⟩

/-- V-S6: the source passes BUF_SIZE. -/
theorem test_senc_source : Answers (issued 0x00000020 20 { withBytes [] 32 with src := 16 }) .outOfRange 0
    (fun t => t.cur = 0 ∧ t.mem = []) := ⟨_, rfl, by decide, by decide⟩

/-- V-T2. -/
theorem test_sdec : Answers (issued 0x00000021 0 (withBytes [0x00, 0x03, 0x61, 0x2F, 0x62] 5)) .ok 3
    (fun t => t.soff = 2 ∧ t.slen = 3 ∧ t.cur = 5 ∧ t.len = 5 ∧ t.view = [0x61, 0x2F, 0x62]) :=
  ⟨_, rfl, by decide, by decide⟩

/-- V-T3. -/
theorem test_sdec_truncated : Answers (issued 0x00000021 0 (withBytes [0x00, 0x03, 0x61, 0x2F] 4)) .truncated 0
    (fun t => t.soff = 0 ∧ t.slen = 0 ∧ t.cur = 0) := ⟨_, rfl, by decide, by decide⟩

/-- V-W2. -/
theorem test_wr16 : Answers (issued 0x00000022 42 (withBytes [] 2)) .ok 2
    (fun t => t.bytesAt 0 2 = [0x00, 0x2A] ∧ t.cur = 2) := ⟨_, rfl, by decide, by decide⟩

/-- V-W5: nothing is written when the window is too short. -/
theorem test_wr16_short : Answers (issued 0x00000022 1 (withBytes [] 1)) .bufferTooShort 0
    (fun t => t.mem = [] ∧ t.cur = 0) := ⟨_, rfl, by decide, by decide⟩

/-- V-R3. -/
theorem test_rd16 : Answers (issued 0x00000023 0 (withBytes [0x12, 0x34] 2)) .ok 0x1234
    (fun t => t.val = 0x1234 ∧ t.cur = 2 ∧ t.len = 2) := ⟨_, rfl, by decide, by decide⟩

/-- V-G10: the longest remaining length. -/
theorem test_fenc : Answers (issued 0x00000830 0xFFFFFFF2 (withBytes [] 8)) .ok 5
    (fun t => t.bytesAt 0 5 = [0x82, 0xFF, 0xFF, 0xFF, 0x7F] ∧ t.cur = 5) := ⟨_, rfl, by decide, by decide⟩

/-- V-G5: PUBLISH with QoS 3. -/
theorem test_fenc_qos3 : Answers (issued 0x00000330 6 (withBytes [] 4)) .outOfRange 0
    (fun t => t.mem = [] ∧ t.cur = 0) := ⟨_, rfl, by decide, by decide⟩

/-- V-F5: the window narrows to the frame. -/
theorem test_fdec : Answers (issued 0x00000031 0 (withBytes [0x30, 0x05, 1, 2, 3, 4, 5, 6, 7] 9)) .ok 5
    (fun t => t.hdr = 0x30 ∧ t.val = 5 ∧ t.cur = 2 ∧ t.wend = 7 ∧ t.oend = 9 ∧ t.len = 2) :=
  ⟨_, rfl, by decide, by decide⟩

/-- V-F2: a PINGREQ with a body. -/
theorem test_fdec_zero_length : Answers (issued 0x00000C31 0 (withBytes [0xC0, 0x01, 0x00] 3)) .malformed 0
    (fun t => t.cur = 0 ∧ t.wend = 3 ∧ t.oend = 0 ∧ t.hdr = 0) := ⟨_, rfl, by decide, by decide⟩

/-- V-H4. -/
theorem test_hdec : Answers (issued 0x00000332 0 (withBytes [0x3D] 1)) .ok 0x3D
    (fun t => hdrRegType t.hdr = 3 ∧ hdrRegFlags t.hdr = 0xD ∧ t.cur = 1) := ⟨_, rfl, by decide, by decide⟩

/-- V-H9: a type that does not match is reported before a reserved one. -/
theorem test_hdec_mismatch : Answers (issued 0x00000132 0 (withBytes [0x00] 1)) .wrongPacketType 0
    (fun t => ferrCode t.ferr = 3 ∧ ferrOpc t.ferr = 0x32) := ⟨_, rfl, by decide, by decide⟩

/-- V-X3. -/
theorem test_fexit : Answers (issued 0x00000033 0 { withBytes [] 4 with cur := 1, oend := 2 }) .ok 4
    (fun t => t.cur = 4 ∧ t.wend = 2 ∧ t.len = 0) := ⟨_, rfl, by decide, by decide⟩

/-- P1 step 4, at cursor 0. -/
theorem test_putb : Answers (issued 0x00000040 0x2F (withBytes [] 1)) .ok 1
    (fun t => t.mem = [(0, 0x2F)] ∧ t.cur = 1 ∧ t.len = 1) := ⟨_, rfl, by decide, by decide⟩

/-- V-C11: the cursor stands above END. -/
theorem test_putb_short : Answers (issued 0x00000040 0 { withBytes [] 4 with cur := 16 }) .bufferTooShort 0
    (fun t => t.cur = 16 ∧ t.mem = []) := ⟨_, rfl, by decide, by decide⟩

/-- P3 step 9: the byte is in BUF but outside the window. -/
theorem test_getb_truncated : Answers (issued 0x00000041 0 { withBytes [0xC0, 0x00, 0xE0, 0x00] 2 with cur := 2 })
    .truncated 0 (fun t => t.val = 0 ∧ t.ferr = 0x4101 ∧ t.fpos = 2) := ⟨_, rfl, by decide, by decide⟩

/-- P2 step 8. -/
theorem test_getb : Answers (issued 0x00000041 0 (withBytes [0x01, 0x02] 2)) .ok 1
    (fun t => t.val = 1 ∧ t.cur = 1 ∧ t.len = 1) := ⟨_, rfl, by decide, by decide⟩

/-- A write over a byte that is listed keeps one entry and the order of the addresses (R31). -/
theorem test_memory_canonical :
    Memory.store [(1, 7), (3, 9)] 3 5 = [(1, 7), (3, 5)] ∧ Memory.store [(1, 7), (3, 9)] 2 5 = [(1, 7), (2, 5), (3, 9)] ∧
    Memory.wf (Memory.store [(1, 7), (3, 9)] 2 5) = true := by decide

/-- R53, R55: a line that is no command, a number out of range, a missing operand, and two expansions. -/
theorem test_assembler :
    assembleLine "ADD 1, 2" = none ∧ assembleLine "VENC 4294967296" = none ∧ assembleLine "WRREG CUR" = none ∧
    assembleLine "WIN 0, 16" = some [(0x00000001, 0), (0x00000101, 16)] ∧
    assembleLine "PUTS 1, 0x2F" = some [(0x00000040, 1), (0x00000040, 0x2F)] := by decide

/-! ### Witnesses: the hypotheses of each obligation hold together, at the edges of their ranges -/

theorem witness_DecodeOfEncodeIsTheCommand :
    (Instr.fenc 14 15 268435455).wf = true ∧ (Instr.fenc 1 0 0).wf = true ∧ (Instr.wrreg .ferr 0xFFFFFFFF).wf = true ∧
    (Instr.fdec 14).wf = true ∧ (Instr.hdec 0).wf = true := by decide

theorem witness_EncodeOfDecodeIsTheRequest :
    decode 0x00000E30 0xFFFFFFFF = .ok (.fenc 14 15 268435455) ∧ decode 0x00000011 0xFFFFFFFF = .ok .vdec := by decide

theorem witness_IllegalRequestsOnlyFail :
    { State.reset with host := [.issue 0x00000003 0] }.host = .issue 0x00000003 0 :: [] ∧
    RequestIllegal 0x00000003 ∧ RequestIllegal 0x000000FF ∧ RequestIllegal 0x00001000 ∧ RequestIllegal 0x00000100 ∧
    RequestIllegal 0x00000B01 ∧ RequestIllegal 0x00000F02 ∧ RequestIllegal 0x00000401 ∧ RequestIllegal 0x00000A01 ∧
    RequestIllegal 0x00000030 ∧ RequestIllegal 0x00000F30 ∧ RequestIllegal 0x00000F31 ∧ RequestIllegal 0x00000F32 ∧
    ¬ RequestIllegal 0x00000901 ∧ ¬ RequestIllegal 0x00000A02 ∧ ¬ RequestIllegal 0x00000E31 := by
  refine ⟨rfl, ?_, ?_, ?_, ?_, ?_, ?_, ?_, ?_, ?_, ?_, ?_, ?_, ?_, ?_, ?_⟩ <;> simp only [RequestIllegal] <;> decide

theorem witness_IgnoredDataHasNoEffect :
    (0x00000033 : Word).toNat % 256 ∈ [0x00, 0x02, 0x11, 0x21, 0x23, 0x32, 0x31, 0x33, 0x41] ∧
    (0xFFFFFF02 : Word).toNat % 256 ∈ [0x00, 0x02, 0x11, 0x21, 0x23, 0x32, 0x31, 0x33, 0x41] := by decide

theorem witness_StepRunsTheDecodedCommand :
    { State.reset with host := [.issue 0x00000040 0xFF, .reset] }.host = .issue 0x00000040 0xFF :: [.reset] ∧
    decode 0x00000040 0xFF = .ok (.putb 0xFF) := ⟨rfl, by decide⟩

theorem witness_IdleBlockKeepsItsState : (withBytes [1] 4).host = [] := rfl

theorem witness_ResetActionClearsTheBlock :
    { withBytes [1] 4 with host := [.reset, .reset] }.host = .reset :: [.reset] := rfl

theorem witness_ResetStateMeetsTheInvariant : Params.Legal ⟨1, true⟩ ∧ Params.Legal ⟨4294967295, false⟩ := by decide

/-- A state of a run: PUTB has written, a failure is recorded, the window is at BUF_SIZE. -/
def running : State :=
  { withBytes [0x30, 0x05] 32 with
    cur := 32, oend := 32, val := 268435455, len := 65537, soff := 30, slen := 2, hdr := 0x3D, ferr := 0x0106, fpos := 32
    response := some ⟨.outOfRange, 0⟩ }

theorem running_inv : running.Inv := by decide

theorem witness_EveryStepKeepsTheInvariant : running.Inv ∧ ∃ t, step { running with host := [.issue 0x00000033 0] } =
    .next t ∧ t.cur = 32 := ⟨running_inv, _, rfl, by decide⟩

theorem witness_RunsNeverStop : running.Inv := running_inv

/-- Only a state that breaks R27 faults: END is above BUF_SIZE. -/
theorem witness_FaultsNeedAnIllegalWindow :
    exec .getb { withBytes [] 33 with cur := 32 } = .fault (.outsideBuffer 32) := rfl

theorem witness_FailureChangesOnlyTheCapture :
    Answers (execute 0x00000041 0 (withBytes [] 0)) .truncated 0 (fun t => t.ferr = 0x4101) ∧
    Answers (execute 0x00000040 0 (withBytes [] 1)) .ok 1 (fun t => t.ferr = 0) :=
  ⟨⟨_, rfl, by decide, by decide⟩, ⟨_, rfl, by decide, by decide⟩⟩

theorem witness_CaptureKeepsTheFirstError :
    { State.reset with host := [.reset] }.host = .reset :: [] ∧
    Answers (execute 0x00000041 0 { withBytes [] 0 with cur := 7 }) .truncated 0 (fun t => t.fpos = 7) ∧
    Answers (execute 0xFFFFFFFF 0 running) .illegalCommand 0 (fun t => t.ferr = 0x0106 ∧ t.fpos = 32) ∧
    Answers (execute 0x00000033 0 running) .ok 32 (fun t => t.ferr = 0x0106 ∧ t.fpos = 32) ∧
    Answers (execute 0x00000901 5 running) .ok 0 (fun t => t.ferr = 0 ∧ t.fpos = 0) :=
  ⟨rfl, ⟨_, rfl, by decide, by decide⟩, ⟨_, rfl, by decide, by decide⟩, ⟨_, rfl, by decide, by decide⟩,
    ⟨_, rfl, by decide, by decide⟩⟩

theorem witness_FailureIsIdempotent :
    Answers (exec .getb (withBytes [] 0)) .truncated 0 (fun t => t.ferr = 0x4101) ∧ Status.truncated ≠ .ok :=
  ⟨⟨_, rfl, by decide, by decide⟩, by decide⟩

theorem witness_CapacityExceededIsNeverProduced :
    Answers (execute 0x00000021 0 (withBytes [0xFF, 0xFF] 2)) .truncated 0 (fun _ => True) := ⟨_, rfl, by decide, trivial⟩

/-- Each status code that a well-formed command can raise is raised. -/
theorem witness_StatusCodesAndWhoRaisesThem :
    Answers (exec .sdec (withBytes [] 1)) .truncated 0 (fun _ => True) ∧
    Answers (exec .vdec (withBytes [0xFF, 0xFF, 0xFF, 0xFF] 4)) .malformed 0 (fun _ => True) ∧
    Answers (exec (.fdec 14) (withBytes [0xC0, 0x00] 2)) .wrongPacketType 0 (fun _ => True) ∧
    Answers (exec (.putb 255) (withBytes [] 0)) .bufferTooShort 0 (fun _ => True) ∧
    Answers (exec (.wrreg .oend 33) (withBytes [] 0)) .outOfRange 0 (fun _ => True) ∧
    (Instr.fdec 14).wf = true ∧ (Instr.wrreg .oend 33).wf = true :=
  ⟨⟨_, rfl, by decide, trivial⟩, ⟨_, rfl, by decide, trivial⟩, ⟨_, rfl, by decide, trivial⟩,
    ⟨_, rfl, by decide, trivial⟩, ⟨_, rfl, by decide, trivial⟩, by decide, by decide⟩

/-- OnlyWord (R90, R62, R63, R71 to R74, R87, R93, R94): the words with the same OPC and a SEL or RSVD bit set. -/
theorem witness_OnlyWord :
    (0x00000100 : Word).toNat % 256 = (0x00000000 : Word).toNat % 256 ∧ (0x00000100 : Word) ≠ 0x00000000 ∧
    (0x80000041 : Word).toNat % 256 = (0x00000041 : Word).toNat % 256 ∧ (0x80000041 : Word) ≠ 0x00000041 := by decide

theorem witness_NopDoesNothing : Answers (exec .nop running) .ok 0 (fun t => t.cur = 32 ∧ t.ferr = 0x0106) :=
  ⟨_, rfl, by decide, by decide⟩

theorem witness_WrregWritesOrClears :
    (32 : Word).toNat ≤ running.params.bufSize ∧ (0 : Word).toNat ≤ running.params.bufSize ∧
    running.params.bufSize < (33 : Word).toNat ∧ running.params.bufSize < (0xFFFFFFFF : Word).toNat ∧
    Reg.val.writable = false ∧ Reg.fpos.writable = false ∧
    (0x00000401 : Word).toNat % 256 = 0x01 ∧ (0x00000401 : Word).toNat ∉ [0x001, 0x101, 0x201, 0x301, 0x901] := by decide

theorem witness_RdregReadsEveryRegister :
    (0x00000B02 : Word).toNat % 256 = 0x02 ∧ 10 < (0x00000B02 : Word).toNat / 256 ∧
    10 < (0x00001002 : Word).toNat / 256 := by decide

theorem witness_PutbWritesOneByte :
    running.wend.toNat ≤ running.params.bufSize ∧ 255 < (256 : Word).toNat ∧ (255 : Word).toNat ≤ 255 ∧
    running.wend.toNat < running.cur.toNat + 1 ∧ (withBytes [] 1).cur.toNat + 1 ≤ (withBytes [] 1).wend.toNat := by decide

theorem witness_GetbReadsOneByte :
    running.wend.toNat ≤ running.params.bufSize ∧ running.wend.toNat < running.cur.toNat + 1 ∧
    { withBytes [] 32 with cur := 31 }.cur.toNat + 1 ≤ { withBytes [] 32 with cur := 31 }.wend.toNat := by decide

theorem witness_EncBytesIsTheCanonicalVarInt :
    IsVarInt 0 (encBytes 0) ∧ IsVarInt 127 (encBytes 127) ∧ IsVarInt 128 [0x80, 0x01] ∧
    IsVarInt 268435455 [0xFF, 0xFF, 0xFF, 0x7F] ∧ 1 < (encBytes 16384).length ∧ (268435455 : Nat) ≤ 268435455 := by
  unfold IsVarInt
  decide

theorem witness_VencWritesTheVarInt :
    268435455 < (268435456 : Word).toNat ∧ (268435455 : Word).toNat ≤ 268435455 ∧ IsVarInt 128 [0x80, 0x01] ∧
    (withBytes [] 1).wend.toNat < (withBytes [] 1).cur.toNat + 2 ∧
    (withBytes [] 2).cur.toNat + 2 ≤ (withBytes [] 2).wend.toNat ∧
    (withBytes [] 2).wend.toNat ≤ (withBytes [] 2).params.bufSize := by
  unfold IsVarInt
  decide

/-- V-D8, V-D2, V-D16, V-D9 and V-D12, V-D13: every clause of R61. -/
theorem witness_VarDecDecidesByTheFirstBytes :
    VarIntEndsAt (withBytes [0x80, 0x80, 0x80, 0x01] 4) 0 3 ∧ VarIntEndsAt (strictWithBytes [0x00] 1) 0 0 ∧
    ¬ NotCanonical (withBytes [0x80, 0x00] 2) 0 1 ∧ ¬ NotCanonical (strictWithBytes [0x00] 1) 0 0 ∧
    VarIntEndsAt (strictWithBytes [0x80, 0x00] 2) 0 1 ∧ NotCanonical (strictWithBytes [0x80, 0x00] 2) 0 1 ∧
    VarIntTooLong (withBytes [0xFF, 0xFF, 0xFF, 0xFF] 4) 0 4 ∧
    varIntValue (withBytes [0x80, 0x80, 0x80, 0x01] 4) 0 4 = 2097152 ∧ (4 : Nat) ≤ (withBytes [] 4).params.bufSize := by
  unfold VarIntEndsAt NotCanonical VarIntTooLong
  decide

theorem witness_runsOut :
    VarIntRunsOut (withBytes [0xFF, 0xFF, 0xFF] 3) 0 3 ∧ VarIntRunsOut (withBytes [] 0) 0 0 := by
  refine ⟨⟨by decide, fun j hj => ?_⟩, ⟨by decide, fun j hj => by omega⟩⟩
  have : ∀ j, j < 3 → 128 ≤ ((withBytes [0xFF, 0xFF, 0xFF] 3).byteAt (0 + j)).toNat := by decide
  exact this j (by omega)

theorem witness_VdecReadsTheVarInt :
    VarIntEndsAt (withBytes [0x7F] 1) (withBytes [0x7F] 1).cur.toNat 0 ∧ ¬ NotCanonical (withBytes [0x7F] 1) 0 0 ∧
    (withBytes [0x7F] 1).cur.toNat + 0 < (withBytes [0x7F] 1).wend.toNat ∧
    NotCanonical (strictWithBytes [0x80, 0x00] 2) (strictWithBytes [0x80, 0x00] 2).cur.toNat 1 ∧
    VarIntTooLong (withBytes [0xFF, 0xFF, 0xFF, 0xFF] 4) (withBytes [0xFF, 0xFF, 0xFF, 0xFF] 4).cur.toNat 4 := by
  unfold VarIntEndsAt NotCanonical VarIntTooLong
  decide

theorem witness_CanonicalEncodingIsShortest : varDec (withBytes [0x80, 0x00] 2) 0 2 = .ok (0, 2) := rfl

theorem witness_StrictDecoderAcceptsOnlyCanonical :
    (strictWithBytes [0xFF, 0xFF, 0xFF, 0x7F] 4).params.strict = true ∧
    varDec (strictWithBytes [0xFF, 0xFF, 0xFF, 0x7F] 4) 0 4 = .ok (268435455, 4) := ⟨rfl, rfl⟩

theorem witness_StrictVdecAcceptsNoMore :
    Answers (exec .vdec (strictWithBytes [0xC1, 0x02] 2)) .ok 321 (fun t => t.params.strict = true) :=
  ⟨_, rfl, by decide, by decide⟩

theorem witness_VdecInvertsVenc :
    Answers (exec (.venc 268435455) (withBytes [] 4)) .ok 4 (fun t => t.cur = 4) ∧
    Answers (exec (.venc 0) (strictWithBytes [] 1)) .ok 1 (fun t => t.cur = 1) :=
  ⟨⟨_, rfl, by decide, by decide⟩, ⟨_, rfl, by decide, by decide⟩⟩

theorem witness_SencWritesTheString :
    65535 < (65536 : Word).toNat ∧ (65535 : Word).toNat ≤ 65535 ∧
    { withBytes [] 5 with src := 30 }.params.bufSize < { withBytes [] 5 with src := 30 }.src.toNat + (3 : Word).toNat ∧
    { withBytes [] 5 with src := 29 }.src.toNat + (3 : Word).toNat ≤ { withBytes [] 5 with src := 29 }.params.bufSize ∧
    (withBytes [] 4).wend.toNat < (withBytes [] 4).cur.toNat + (2 + (3 : Word).toNat) ∧
    (withBytes [] 5).cur.toNat + (2 + (3 : Word).toNat) ≤ (withBytes [] 5).wend.toNat := by decide

theorem witness_SdecTakesTheView :
    (withBytes [0x00] 1).wend.toNat < (withBytes [0x00] 1).cur.toNat + 2 ∧
    Answers (exec .sdec (withBytes [0x00, 0x00] 2)) .ok 0 (fun t => t.soff = 2 ∧ t.slen = 0) ∧
    Answers (exec .sdec (withBytes [0x00, 0x01] 2)) .truncated 0 (fun t => t.soff = 0) :=
  ⟨by decide, ⟨_, rfl, by decide, by decide⟩, ⟨_, rfl, by decide, by decide⟩⟩

theorem witness_SdecInvertsSenc :
    Answers (exec (.senc 2) (withBytes [0xAA, 0xBB] 4)) .ok 4 (fun t => t.cur = 4) ∧
    Answers (exec (.senc 0) { withBytes [] 32 with cur := 30, src := 32 }) .ok 2 (fun t => t.cur = 32) :=
  ⟨⟨_, rfl, by decide, by decide⟩, ⟨_, rfl, by decide, by decide⟩⟩

theorem witness_Wr16WritesBigEndian :
    65535 < (65536 : Word).toNat ∧ (65535 : Word).toNat ≤ 65535 ∧
    (withBytes [] 1).wend.toNat < (withBytes [] 1).cur.toNat + 2 ∧
    (withBytes [] 2).cur.toNat + 2 ≤ (withBytes [] 2).wend.toNat ∧
    (withBytes [] 2).wend.toNat ≤ (withBytes [] 2).params.bufSize := by decide

theorem witness_Rd16ReadsBigEndian :
    (withBytes [0x12] 1).wend.toNat < (withBytes [0x12] 1).cur.toNat + 2 ∧
    (withBytes [0x12, 0x34] 2).cur.toNat + 2 ≤ (withBytes [0x12, 0x34] 2).wend.toNat := by decide

theorem witness_FieldReadersInvertWriters :
    Answers (exec (.wr16 65535) (withBytes [] 2)) .ok 2 (fun t => t.cur = 2) ∧
    Answers (exec (.putb 255) { withBytes [] 32 with cur := 31 }) .ok 1 (fun t => t.cur = 32) :=
  ⟨⟨_, rfl, by decide, by decide⟩, ⟨_, rfl, by decide, by decide⟩⟩

theorem witness_ViewFollowsTheBuffer :
    Answers (exec (.putb 9) { withBytes [1, 2, 3] 3 with cur := 1, soff := 1, slen := 2 }) .ok 1
      (fun t => t.view = [9, 3]) ∧
    Answers (exec (.putb 9) { withBytes [1, 2, 3] 3 with soff := 1, slen := 2 }) .ok 1 (fun t => t.view = [2, 3]) :=
  ⟨⟨_, rfl, by decide, by decide⟩, ⟨_, rfl, by decide, by decide⟩⟩

/-- V-H1, V-H17, V-H16, V-H9, V-H8, V-H10, V-H6, V-H4: every answer of headerFailure, in the order of R103. -/
theorem witness_HdecReadsTheHeaderByte :
    headerFailure 12 (withBytes [0xC0] 1) = none ∧ headerFailure 15 (withBytes [0x30] 0) = some .illegalCommand ∧
    headerFailure 0 (withBytes [] 0) = some .truncated ∧ headerFailure 1 (withBytes [0x00] 1) = some .wrongPacketType ∧
    headerFailure 0 (withBytes [0x00] 1) = some .malformed ∧ headerFailure 0 (withBytes [0xF0] 1) = some .malformed ∧
    headerFailure 3 (withBytes [0x36] 1) = some .malformed ∧ headerFailure 3 (withBytes [0x3D] 1) = none ∧
    (0x00000F32 : Word).toNat % 256 = 0x32 ∧ 14 < (0x00000F32 : Word).toNat / 256 := by decide

/-- V-F4 (fits exactly), V-F3 (one too long), V-F2 (PINGREQ with a body), V-F1, and a non-canonical length. -/
theorem witness_FdecReadsTheFrameHeader :
    headerFailure 3 (withBytes [0x30, 0x05, 1, 2, 3, 4, 5] 7) = none ∧
    VarIntEndsAt (withBytes [0x30, 0x05, 1, 2, 3, 4, 5] 7) 1 0 ∧
    varIntValue (withBytes [0x30, 0x05, 1, 2, 3, 4, 5] 7) 1 1 = 5 ∧ 1 + 1 + 5 ≤ (7 : Word).toNat ∧
    (6 : Word).toNat < 1 + 1 + 5 ∧
    headerFailure 0 (withBytes [0xC0, 0x01, 0x00] 3) = none ∧ 12 ≤ (0xC0 : Nat) / 16 ∧
    varIntValue (withBytes [0xC0, 0x01, 0x00] 3) 1 1 ≠ 0 ∧ varIntValue (withBytes [0xC0, 0x00] 2) 1 1 = 0 ∧
    NotCanonical (strictWithBytes [0x30, 0x80, 0x00] 3) 1 1 ∧
    VarIntTooLong (withBytes [0x30, 0xFF, 0xFF, 0xFF, 0xFF] 5) 1 5 := by
  unfold VarIntEndsAt NotCanonical VarIntTooLong
  decide

/-- V-F6 and V-F7. -/
theorem witness_fdecRunsOut :
    VarIntRunsOut (withBytes [0x30] 1) 1 1 ∧ VarIntRunsOut (withBytes [0x30, 0x80] 2) 1 2 := by
  refine ⟨⟨by decide, fun j hj => by omega⟩, ⟨by decide, fun j hj => ?_⟩⟩
  have h : j = 0 := by omega
  rw [h]
  decide

theorem witness_FencWritesTheFrameHeader :
    (withBytes [] 3).wend.toNat ≤ (withBytes [] 3).params.bufSize ∧ 1 ≤ (1 : Nibble).toNat ∧ (14 : Nibble).toNat ≤ 14 ∧
    (12 ≤ (12 : Nibble).toNat ∧ (1 : BitVec 28).toNat ≠ 0) ∧ ((3 : Nibble).toNat = 3 ∧ (6 : Nibble).toNat / 2 % 4 = 3) ∧
    ¬ ((3 : Nibble).toNat = 3 ∧ (0xB : Nibble).toNat / 2 % 4 = 3) ∧ IsVarInt 128 [0x80, 0x01] ∧
    (withBytes [] 2).wend.toNat < (withBytes [] 2).cur.toNat + (1 + 2) ∧
    (withBytes [] 3).cur.toNat + (1 + 2) ≤ (withBytes [] 3).wend.toNat ∧
    (0x00000030 : Word).toNat / 256 = 0 ∧ 14 < (0x00000F30 : Word).toNat / 256 := by
  unfold IsVarInt
  decide

theorem witness_FdecInvertsFenc :
    Answers (exec (.fenc 3 3 10) (withBytes [] 12)) .ok 2
      (fun t => t.cur.toNat + (10 : BitVec 28).toNat ≤ (withBytes [] 12).wend.toNat) ∧
    Answers (exec (.fenc 12 0 0) (withBytes [] 2)) .ok 2
      (fun t => t.cur.toNat + (0 : BitVec 28).toNat ≤ (withBytes [] 2).wend.toNat) :=
  ⟨⟨_, rfl, by decide, by decide⟩, ⟨_, rfl, by decide, by decide⟩⟩

theorem witness_FrameIsEnteredAndLeft :
    Answers (exec (.fdec 0) (withBytes [0x30, 0x01, 7] 3)) .ok 1 (fun t => t.wend = 3) := ⟨_, rfl, by decide, by decide⟩

theorem witness_BufferReadsWhatWasWritten :
    30 + [(1 : Byte), 2].length ≤ (withBytes [] 0).params.bufSize ∧
    (withBytes [] 0).params.bufSize < 31 + [(1 : Byte), 2].length := by decide

theorem witness_ReadersLeaveTheBuffer :
    writesNothing .sdec = true ∧ Answers (exec .sdec (withBytes [0x00, 0x00] 2)) .ok 0 (fun _ => True) :=
  ⟨rfl, _, rfl, by decide, trivial⟩

theorem witness_WritesStayInTheWindow :
    Answers (exec (.putb 5) { withBytes [1, 2, 3] 2 with cur := 1 }) .ok 1 (fun t => t.bytesAt 0 3 = [1, 5, 3]) ∧
    0 < { withBytes [1, 2, 3] 2 with cur := 1 }.cur.toNat ∧ { withBytes [1, 2, 3] 2 with cur := 1 }.wend.toNat ≤ 2 :=
  ⟨⟨_, rfl, by decide, by decide⟩, by decide, by decide⟩

/-- The two memories differ outside the window, and the decoder runs. -/
theorem witness_DecodersSeeOnlyTheWindow :
    readsAtCursor .getb = true ∧
    (∀ a, (withBytes [7, 8] 1).cur.toNat ≤ a → a < (withBytes [7, 8] 1).wend.toNat →
      { withBytes [7, 8] 1 with mem := [(0, 7), (1, 9)], draw := 4 }.byteAt a = (withBytes [7, 8] 1).byteAt a) ∧
    Answers (exec .getb (withBytes [7, 8] 1)) .ok 7 (fun t => t.cur = 1) := by
  refine ⟨rfl, fun a _ ha => ?_, _, rfl, by decide, by decide⟩
  have h : a = 0 := by
    have : (withBytes [7, 8] 1).wend.toNat = 1 := rfl
    omega
  rw [h]
  rfl

theorem witness_CursorMovesByTheLength :
    movesBytes .rd16 = true ∧ Answers (exec .rd16 (withBytes [1, 2] 2)) .ok 258 (fun t => t.cur = 2) ∧
    movesBytes (.putb 0) = true ∧ writesNothing (.putb 0) = false :=
  ⟨rfl, ⟨_, rfl, by decide, by decide⟩, rfl, rfl⟩

/-- Each of the registers that a clause is about does change. -/
theorem witness_RegistersAreWrittenOnlyByTheirCommands :
    Answers (exec (.wrreg .src 3) (withBytes [] 0)) .ok 0 (fun t => t.src = 3) ∧
    Answers (exec (.fdec 0) (withBytes [0x30, 0x01, 7] 4)) .ok 1
      (fun t => t.val = 1 ∧ t.hdr = 0x30 ∧ t.oend = 4 ∧ t.wend = 3 ∧ t.cur = 2 ∧ t.len = 2) ∧
    Answers (exec .sdec (withBytes [0x00, 0x01, 7] 3)) .ok 1 (fun t => t.soff = 2 ∧ t.slen = 1) :=
  ⟨⟨_, rfl, by decide, by decide⟩, ⟨_, rfl, by decide, by decide⟩, ⟨_, rfl, by decide, by decide⟩⟩

theorem witness_EmptyWindowFailsEveryBufferCommand :
    State.reset.wend.toNat ≤ State.reset.cur.toNat ∧ running.wend.toNat ≤ running.cur.toNat ∧ (14 : Nibble) ≠ 15 ∧
    (268435455 : Word).toNat ≤ 268435455 ∧ running.src.toNat + (32 : Word).toNat ≤ running.params.bufSize ∧
    (12 ≤ (14 : Nibble).toNat → (0 : BitVec 28).toNat = 0) := by decide

theorem witness_PseudoCommandsExpand :
    (withBytes [] 2).wend.toNat ≤ (withBytes [] 2).params.bufSize ∧
    (withBytes [] 2).cur.toNat + 2 ≤ (withBytes [] 2).wend.toNat := by decide

end Sys2Proof.Tests
end

section
/-! P_STRICT_CANONICAL only makes the decoder refuse more: what it accepts under either value, it accepts unchanged without it (00_scope.md R6; 40_varint.md R61, R63). -/

namespace Sys2Proof.Machine

/-- The same state with P_STRICT_CANONICAL false (R6). -/
def State.lenient (s : State) : State := { s with params := { s.params with strict := false } }

/-- Without P_STRICT_CANONICAL no encoding is refused as not canonical (R61). -/
theorem not_strict_lenient (s : State) : ¬ s.lenient.params.strict = true := Bool.false_ne_true

/-- The parameter decides only whether the last byte is refused: where the decoder ends, and with what value, is read from
the bytes, which both states share. -/
theorem varDec_lenient_of_ok {s : State} {p e w n : Nat} (h : varDec s p e = .ok (w, n)) :
    varDec s.lenient p e = .ok (w, n) := by
  obtain ⟨j, hj, rfl, rfl, hwin, hbuf, hcont, hend, -⟩ := varDecFrom_eq_ok h
  have hdec := varDecFrom_ends (s := s.lenient) (v := 0) hj hbuf hcont hend hwin
  rw [check_pos fun hstrict => not_strict_lenient s hstrict.1, ok_bind] at hdec
  exact hdec

theorem vdec_lenient_of_ok {s u : State} {r : Word} (h : vdec s = .ok (u, r)) :
    vdec s.lenient = .ok (u.lenient, r) := by
  obtain ⟨w, n, hdec, rfl, rfl⟩ := vdec_eq_ok h
  exact vdec_of_ok (varDec_lenient_of_ok hdec)

/-- Settles O30: a VDEC that answers OK committed what its pseudocode computed, its pseudocode computes the same in the
lenient state, and no command changes the parameters. -/
theorem strictVdecAcceptsNoMore : Obligations.StrictVdecAcceptsNoMore := by
  unfold Obligations.StrictVdecAcceptsNoMore
  intro s t r hexec hresp
  obtain ⟨u, hbody, rfl⟩ := exec_committed hexec hresp
  have hparams : u.params = s.params := (body_rest hbody).1
  have hlenient : exec .vdec s.lenient = .next (u.lenient.respond .ok r) :=
    exec_ok (i := .vdec) (vdec_lenient_of_ok hbody)
  rw [State.lenient, State.lenient, hparams] at hlenient
  exact hlenient

end Sys2Proof.Machine
end

section
/-! What the packet type and header flag tests say in numbers (42_header.md R80 to R83). -/

namespace Sys2Proof.Machine

theorem hdrType_toNat (b : Byte) : (hdrType b).toNat = b.toNat / 16 := by
  have := b.isLt
  simp only [hdrType, BitVec.extractLsb'_toNat, Nat.shiftRight_eq_div_pow]
  omega

theorem hdrFlags_toNat (b : Byte) : (hdrFlags b).toNat = b.toNat % 16 := by
  simp [hdrFlags, BitVec.extractLsb'_toNat]

theorem validType_iff (t : Nibble) : validType t = true ↔ 1 ≤ t.toNat ∧ t.toNat ≤ 14 := by
  revert t; decide

theorem badQos_iff (t f : Nibble) : badQos t f = true ↔ t.toNat = 3 ∧ f.toNat / 2 % 4 = 3 := by
  revert t f; decide

theorem zeroLengthKind_iff (t : Nibble) : zeroLengthKind t = true ↔ 12 ≤ t.toNat ∧ t.toNat ≤ 14 := by
  revert t; decide

/-- A header byte HDR may hold, in the numbers of R23: a valid type, and not PUBLISH with QoS 3. -/
def HeaderInRange (b : Byte) : Prop :=
  1 ≤ b.toNat / 16 ∧ b.toNat / 16 ≤ 14 ∧ ¬ (b.toNat / 16 = 3 ∧ b.toNat / 2 % 4 = 3)

/-- HDEC and FDEC accept no other header byte (R84, R85). -/
theorem headerByte_range {s : State} {e : Nibble} {b : Byte} (h : headerByte s e = .ok b) : HeaderInRange b := by
  obtain ⟨-, -, -, -, hvalid, hqos⟩ := headerByte_eq_ok.1 h
  rw [validType_iff, hdrType_toNat] at hvalid
  rw [← Bool.not_eq_true, badQos_iff, hdrType_toNat, hdrFlags_toNat] at hqos
  rw [HeaderInRange]
  omega

end Sys2Proof.Machine
end

section
/-! The invariant of the block, kept by each update of State that the commands are made of, hence by every command, every
step and every run (10_state.md R27; 20_memory.md R31; 60_exceptions.md R109). -/

namespace Sys2Proof.Machine

/-- Narrowing to a register never makes a number larger. -/
theorem word_toNat_le (n : Nat) : (word n).toNat ≤ n := by
  rw [BitVec.toNat_ofNat]
  exact Nat.mod_le ..

theorem zeroExtend_toNat (b : Byte) : (b.zeroExtend 32).toNat = b.toNat :=
  BitVec.toNat_setWidth_of_le (by decide)

/-- The codes a command can fail with (60_exceptions.md R100, R109). -/
theorem failureCode_range {c : Status} (hok : c ≠ .ok) (hcap : c ≠ .capacityExceeded) :
    1 ≤ c.code.toNat ∧ c.code.toNat ≤ 7 ∧ c.code.toNat ≠ 4 := by
  revert hok hcap
  cases c <;> decide

section Updates

variable {s : State}

/-! ### The register file and BUF -/

theorem inv_resetWith {p : Params} (hp : p.Legal) (d : Nat) (h : List HostAction) : (State.resetWith p d h).Inv :=
  ⟨hp, by simp [State.resetWith], by simp [State.FieldsInv, State.resetWith],
    by simp [State.MemInv, State.resetWith], by simp [State.PortInv, State.resetWith]⟩

theorem inv_setVal (hs : s.Inv) {v : Word} (hv : v.toNat ≤ 268435455) : { s with val := v }.Inv := by
  obtain ⟨hp, hb, ⟨-, hf⟩, hm, hr⟩ := hs
  exact ⟨hp, hb, ⟨hv, hf⟩, hm, hr⟩

theorem inv_setHdr (hs : s.Inv) {b : Byte} (hb : HeaderInRange b) : { s with hdr := b.zeroExtend 32 }.Inv := by
  obtain ⟨hp, hbounds, ⟨hval, hlen, hslen, -, -, hferr⟩, hm, hr⟩ := hs
  have := b.isLt
  refine ⟨hp, hbounds, ⟨hval, hlen, hslen, ?_, .inr ?_, hferr⟩, hm, hr⟩
  · simp only [zeroExtend_toNat]; omega
  · simp only [zeroExtend_toNat]; exact hb

theorem inv_setView (hs : s.Inv) {o n : Nat} (hn : n ≤ 65535) (ho : o + n ≤ s.params.bufSize) :
    { s with soff := word o, slen := word n }.Inv := by
  obtain ⟨hp, ⟨hcur, hwend, hoend, hsrc, -, hfpos⟩, ⟨hval, hlen, -, hfields⟩, hm, hr⟩ := hs
  have := word_toNat_le o
  have := word_toNat_le n
  exact ⟨hp, ⟨hcur, hwend, hoend, hsrc, by dsimp only; omega, hfpos⟩, ⟨hval, hlen, by dsimp only; omega, hfields⟩, hm, hr⟩

theorem inv_setWindow (hs : s.Inv) {w o : Word} (hw : w.toNat ≤ s.params.bufSize) (ho : o.toNat ≤ s.params.bufSize) :
    { s with wend := w, oend := o }.Inv := by
  obtain ⟨hp, ⟨hcur, -, -, hrest⟩, hf, hm, hr⟩ := hs
  exact ⟨hp, ⟨hcur, hw, ho, hrest⟩, hf, hm, hr⟩

theorem inv_setCurLen (hs : s.Inv) {c l : Word} (hc : c.toNat ≤ s.params.bufSize) (hl : l.toNat ≤ 65537) :
    { s with cur := c, len := l }.Inv := by
  obtain ⟨hp, ⟨-, hbounds⟩, ⟨hval, -, hfields⟩, hm, hr⟩ := hs
  exact ⟨hp, ⟨hc, hbounds⟩, ⟨hval, hl, hfields⟩, hm, hr⟩

theorem inv_setSrc (hs : s.Inv) {d : Word} (hd : d.toNat ≤ s.params.bufSize) : { s with src := d }.Inv := by
  obtain ⟨hp, ⟨hcur, hwend, hoend, -, hrest⟩, hf, hm, hr⟩ := hs
  exact ⟨hp, ⟨hcur, hwend, hoend, hd, hrest⟩, hf, hm, hr⟩

theorem inv_clearError (hs : s.Inv) : { s with ferr := 0, fpos := 0 }.Inv := by
  obtain ⟨hp, ⟨hcur, hwend, hoend, hsrc, hview, -⟩, ⟨hval, hlen, hslen, hhdr, htype, -⟩, hm, hr⟩ := hs
  exact ⟨hp, ⟨hcur, hwend, hoend, hsrc, hview, Nat.zero_le _⟩, ⟨hval, hlen, hslen, hhdr, htype, by simp⟩, hm, hr⟩

theorem inv_storeAll (hs : s.Inv) {a : Nat} {bs : List Byte} (ha : a + bs.length ≤ s.params.bufSize) :
    { s with mem := s.mem.storeAll a bs }.Inv := by
  obtain ⟨hp, hb, hf, ⟨hwf, hm⟩, hr⟩ := hs
  refine ⟨hp, hb, hf, ⟨storeAll_wf bs _ a hwf, fun c hc => ?_⟩, hr⟩
  rcases mem_storeAll bs _ a c hc with ⟨-, hlt⟩ | hold
  · exact Nat.lt_of_lt_of_le hlt ha
  · exact hm c hold

/-! ### The updates the pseudocode is made of -/

/-- WRREG writes an address register only with a value up to BUF_SIZE (R91). -/
theorem inv_setAddress (hs : s.Inv) {r : Reg} {d : Word} (hr : r ∈ [Reg.cur, .wend, .oend, .src])
    (hd : d.toNat ≤ s.params.bufSize) : (s.setReg r d).Inv := by
  have ⟨_, ⟨_, hwend, hoend, _⟩, ⟨_, hlen, _⟩, _⟩ := hs
  simp only [List.mem_cons, List.not_mem_nil, or_false] at hr
  rcases hr with rfl | rfl | rfl | rfl
  · exact inv_setCurLen hs hd hlen
  · exact inv_setWindow hs hd hoend
  · exact inv_setWindow hs hwend hd
  · exact inv_setSrc hs hd

theorem inv_advance (hs : s.Inv) {n : Nat} (hn : n ≤ 65537) (hin : s.inWin n) : (s.advance n).Inv := by
  have ⟨_, ⟨_, hwend, _⟩, _⟩ := hs
  have := word_toNat_le (s.cur.toNat + n)
  have := word_toNat_le n
  exact inv_setCurLen hs (by omega) (by omega)

theorem inv_emitted (hs : s.Inv) {bs : List Byte} (hn : bs.length ≤ 65537) (hin : s.inWin bs.length)
    (hbuf : s.cur.toNat + bs.length ≤ s.params.bufSize) : (s.emitted bs).Inv :=
  inv_advance (inv_storeAll hs hbuf) hn hin

theorem inv_leaveFrame (hs : s.Inv) : s.leaveFrame.Inv := by
  have ⟨_, ⟨_, hwend, hoend, _⟩, _⟩ := hs
  exact inv_setWindow (inv_setCurLen hs hwend (Nat.zero_le _)) hoend hoend

theorem inv_enterFrame (hs : s.Inv) {b : Byte} {rl n : Nat} (hb : HeaderInRange b)
    (hrl : rl ≤ 268435455) (hn : n ≤ 4) (hin : s.cur.toNat + 1 + n + rl ≤ s.wend.toNat) :
    (s.enterFrame b rl n).Inv := by
  have ⟨_, ⟨_, hwend, _⟩, _⟩ := hs
  have := word_toNat_le (s.cur.toNat + 1 + n)
  have := word_toNat_le (s.cur.toNat + 1 + n + rl)
  have := word_toNat_le (1 + n)
  have hfields := inv_setVal (inv_setHdr hs hb) ((word_toNat_le rl).trans hrl)
  exact inv_setWindow (inv_setCurLen hfields (c := word (s.cur.toNat + 1 + n)) (l := word (1 + n))
    (by dsimp only; omega) (by omega)) (by dsimp only; omega) hwend

/-! ### The end of a command -/

theorem inv_withHost (hs : s.Inv) (h : List HostAction) : (s.withHost h).Inv := hs

theorem inv_respond_ok (hs : s.Inv) (r : Word) : (s.respond .ok r).Inv := by
  obtain ⟨hp, hb, hf, hm, -⟩ := hs
  refine ⟨hp, hb, hf, hm, ?_⟩
  rintro _ ⟨⟩
  exact ⟨nofun, fun h => absurd rfl h⟩

theorem inv_afterFailure (hs : s.Inv) {c : Status} (hok : c ≠ .ok) (hcap : c ≠ .capacityExceeded) (opc : Byte) :
    (s.afterFailure c opc).Inv := by
  obtain ⟨hp, ⟨hcur, hwend, hoend, hsrc, hview, hfpos⟩, ⟨hval, hlen, hslen, hhdr, htype, hferr⟩, hm, -⟩ := hs
  refine ⟨hp, ⟨hcur, hwend, hoend, hsrc, hview, ?_⟩, ⟨hval, hlen, hslen, hhdr, htype, ?_⟩, hm, ?_⟩
  · rw [afterFailure_fpos]
    split
    · exact hcur
    · exact hfpos
  · rw [afterFailure_ferr, afterFailure_fpos]
    by_cases hfirst : s.ferr.toNat % 16 = 0
    · have := opc.isLt
      have := failureCode_range hok hcap
      have hword : (word (opc.toNat * 256 + c.code.toNat)).toNat = opc.toNat * 256 + c.code.toNat := by
        rw [BitVec.toNat_ofNat]; omega
      rw [if_pos hfirst, if_pos hfirst, hword]
      omega
    · simpa only [if_neg hfirst] using hferr
  · rintro _ ⟨⟩
    exact ⟨hcap, fun _ => rfl⟩

end Updates

/-! ### Commands, steps and runs -/

theorem body_keeps_inv {i : Instr} {s u : State} {r : Word} (hs : s.Inv) (h : body i s = .ok (u, r)) : u.Inv := by
  rcases body_cases h with ⟨bs, -, -, -, hlen, hin, hbuf, rfl, -⟩ | ⟨hw, -⟩
  · exact inv_emitted hs hlen hin hbuf
  have ⟨_, ⟨_, hwend, _⟩, _⟩ := hs
  cases i <;> simp only [body] at h
  case venc | senc | wr16 | fenc | putb => exact nomatch hw
  case nop | rdreg => cases h; exact hs
  case wrreg =>
    obtain ⟨-, ⟨hr, hd, rfl⟩ | ⟨-, rfl⟩⟩ := wrreg_eq_ok h
    · exact inv_setAddress hs hr hd
    · exact inv_clearError hs
  case vdec =>
    obtain ⟨w, n, hdec, rfl, -⟩ := vdec_eq_ok h
    obtain ⟨j, hj, rfl, rfl, hwin, -⟩ := varDec_eq_ok hdec
    exact inv_advance (inv_setVal hs ((word_toNat_le _).trans (varIntValue_le s _ hj))) (by omega) hwin
  case sdec =>
    obtain ⟨-, hin, rfl, -⟩ := sdec_eq_ok.1 h
    have hn : s.declared < 65536 := be16_lt _ _
    exact inv_advance (inv_setView hs (by omega) (by omega)) (by omega) hin
  case rd16 =>
    obtain ⟨hin, -, rfl, -⟩ := rd16_eq_ok.1 h
    have hn := be16_lt (s.byteAt s.cur.toNat) (s.byteAt (s.cur.toNat + 1))
    exact inv_advance (inv_setVal hs ((word_toNat_le _).trans (by omega))) (by decide) hin
  case fdec =>
    obtain ⟨-, b, w, n, hb, hdec, -, hin, rfl, -⟩ := fdec_eq_ok.1 h
    obtain ⟨j, hj, rfl, rfl, -⟩ := varDec_eq_ok hdec
    exact inv_enterFrame hs (headerByte_range hb) (varIntValue_le s _ hj) hj hin
  case hdec =>
    obtain ⟨-, b, hb, rfl, -⟩ := hdec_eq_ok.1 h
    exact inv_advance (inv_setHdr hs (headerByte_range hb)) (by decide) (headerByte_eq_ok.1 hb).1
  case fexit => cases h; exact inv_leaveFrame hs
  case getb =>
    obtain ⟨hin, -, rfl, -⟩ := getb_eq_ok.1 h
    have hn := (s.byteAt s.cur.toNat).isLt
    exact inv_advance (inv_setVal hs (by rw [zeroExtend_toNat]; omega)) (by decide) hin

theorem execute_keeps_inv {cmd data : Word} {s t : State} (hs : s.Inv) (h : execute cmd data s = .next t) : t.Inv := by
  rcases execute_next h with ⟨_, -, rfl⟩ | ⟨i, c, -, hbody, rfl⟩ | ⟨i, u, r, -, hbody, rfl⟩
  · exact inv_afterFailure hs (by decide) (by decide) _
  · obtain ⟨hok, hcap⟩ := body_raised_ne hbody
    exact inv_afterFailure hs hok hcap _
  · exact inv_respond_ok (body_keeps_inv hs hbody) r

/-- Everything one step can be: the block is idle, executes the host's next request, or is reset. -/
theorem step_cases (s : State) :
    step s = .next s ∨ (∃ cmd data rest, step s = execute cmd data (s.withHost rest)) ∨
      ∃ rest, step s = .next (s.afterReset rest) := by
  unfold step
  split
  · exact .inl rfl
  · exact .inr (.inl ⟨_, _, _, rfl⟩)
  · exact .inr (.inr ⟨_, rfl⟩)

theorem step_keeps_inv {s t : State} (hs : s.Inv) (h : step s = .next t) : t.Inv := by
  rcases step_cases s with hidle | ⟨cmd, data, rest, hissue⟩ | ⟨rest, hreset⟩
  · cases hidle.symm.trans h; exact hs
  · exact execute_keeps_inv (inv_withHost hs rest) (hissue.symm.trans h)
  · cases hreset.symm.trans h; exact inv_resetWith hs.1 _ rest

/-- With END inside BUF every request is answered: no command reaches a byte outside BUF (R32). -/
theorem execute_next_of_wend_le {s : State} (hw : s.wend.toNat ≤ s.params.bufSize) (cmd data : Word) :
    ∃ t, execute cmd data s = .next t := by
  unfold execute
  split
  case h_1 i _ =>
    cases hexec : exec i s with
    | next t => exact ⟨t, rfl⟩
    | fault f => exact absurd (body_fault (exec_eq_fault.1 hexec)) (Nat.not_lt.2 hw)
    | refused r => exact absurd hexec (exec_ne_refused i s r)
  case h_2 => exact ⟨_, rfl⟩

theorem step_next_of_inv {s : State} (hs : s.Inv) : ∃ t, step s = .next t := by
  have ⟨_, ⟨_, hwend, _⟩, _⟩ := hs
  rcases step_cases s with hidle | ⟨cmd, data, rest, hissue⟩ | ⟨rest, hreset⟩
  · exact ⟨_, hidle⟩
  · rw [hissue]; exact execute_next_of_wend_le (s := s.withHost rest) hwend cmd data
  · exact ⟨_, hreset⟩

theorem run_succ_of_step {M : Host.Core} {s t : M.State} (h : M.step s = .next t) (k : Nat) :
    M.run (k + 1) s = M.run k t := by
  rw [Host.Core.run, h]

/-- Settles O11, by the step's three cases; each command keeps the invariant because each update it is made of does. -/
theorem everyStepKeepsTheInvariant : Obligations.EveryStepKeepsTheInvariant := by
  unfold Obligations.EveryStepKeepsTheInvariant
  exact fun _ _ hs h => step_keeps_inv hs h

/-- Settles O12, by induction on the number of steps: a state with the invariant has a next one, with the invariant. -/
theorem runsNeverStop : Obligations.RunsNeverStop := by
  unfold Obligations.RunsNeverStop
  intro s hs k
  induction k generalizing s with
  | zero => exact ⟨s, rfl, hs⟩
  | succ k ih =>
    obtain ⟨t, ht⟩ := step_next_of_inv hs
    rw [run_succ_of_step (M := Sys2Proof.core) ht]
    exact ih t (step_keeps_inv hs ht)

end Sys2Proof.Machine
end

section
/-! What a command can touch: the bytes of the window, the cursor by the bytes it moved, and the registers that name it as
their writer (10_state.md R14 to R16, R20; 20_memory.md R32). -/

namespace Sys2Proof.Machine

/-- A command that succeeds leaves the bytes outside the window: what it writes begins at CUR and ends by END. -/
theorem body_byteAt_outside {i : Instr} {s u : State} {r : Word} (h : body i s = .ok (u, r)) {a : Nat}
    (ha : a < s.cur.toNat ∨ s.wend.toNat ≤ a) : u.byteAt a = s.byteAt a := by
  rcases body_cases h with ⟨bs, -, -, -, -, hin, -, rfl, -⟩ | ⟨-, hmem⟩
  · exact byteAt_storeAll_other s _ a bs (by omega)
  · obtain ⟨-, -, hdraw, -⟩ := body_rest h
    exact byteAt_congr hmem hdraw a

/-- Settles O49: a success writes inside the window only, a failure writes nothing. -/
theorem writesStayInTheWindow : Obligations.WritesStayInTheWindow := by
  unfold Obligations.WritesStayInTheWindow
  intro i s t a hexec ha
  rcases exec_eq_next.1 hexec with ⟨u, r, hbody, rfl⟩ | ⟨c, -, rfl⟩
  · exact body_byteAt_outside hbody ha
  · rfl

/-- Every command that moves bytes at the cursor moves CUR past `n` of them inside the window, 1 to 65537, and sets LEN to
`n`; an encoder answers `n` (R15, R20). -/
theorem body_moves {i : Instr} {s u : State} {r : Word} (hmoves : movesBytes i = true) (h : body i s = .ok (u, r)) :
    ∃ n, 1 ≤ n ∧ n ≤ 65537 ∧ s.inWin n ∧ u.cur = word (s.cur.toNat + n) ∧ u.len = word n ∧
      (writesNothing i = false → r = word n) := by
  rcases body_cases h with ⟨bs, -, -, hpos, hlen, hin, -, rfl, rfl⟩ | ⟨hw, -⟩
  · exact ⟨bs.length, hpos, hlen, hin, rfl, rfl, fun _ => rfl⟩
  have henc : ∀ n, writesNothing i = false → r = word n := fun _ hw' => absurd (hw.symm.trans hw') (by decide)
  cases i <;> simp only [body] at h
  case nop | wrreg | rdreg | fexit => exact nomatch hmoves
  case venc | senc | wr16 | fenc | putb => exact nomatch hw
  case vdec =>
    obtain ⟨w, n, hdec, rfl, -⟩ := vdec_eq_ok h
    obtain ⟨j, hj, rfl, -, hwin, -⟩ := varDec_eq_ok hdec
    exact ⟨j + 1, by omega, by omega, hwin, rfl, rfl, henc _⟩
  case sdec =>
    obtain ⟨-, hin, rfl, -⟩ := sdec_eq_ok.1 h
    have hn : s.declared < 65536 := be16_lt _ _
    exact ⟨2 + s.declared, by omega, by omega, hin, rfl, rfl, henc _⟩
  case rd16 =>
    obtain ⟨hin, -, rfl, -⟩ := rd16_eq_ok.1 h
    exact ⟨2, by decide, by decide, hin, rfl, rfl, henc _⟩
  case fdec =>
    obtain ⟨-, b, w, n, -, hdec, -, hin, rfl, -⟩ := fdec_eq_ok.1 h
    obtain ⟨j, hj, rfl, -⟩ := varDec_eq_ok hdec
    exact ⟨1 + (j + 1), by omega, by omega, by omega, by rw [enterFrame_cur, Nat.add_assoc], rfl, henc _⟩
  case hdec =>
    obtain ⟨-, b, hb, rfl, -⟩ := hdec_eq_ok.1 h
    exact ⟨1, by decide, by decide, (headerByte_eq_ok.1 hb).1, rfl, rfl, henc _⟩
  case getb =>
    obtain ⟨hin, -, rfl, -⟩ := getb_eq_ok.1 h
    exact ⟨1, by decide, by decide, hin, rfl, rfl, henc _⟩

/-- Settles O51: the cursor and LEN of body_moves do not wrap, as CUR + LEN is at most END. -/
theorem cursorMovesByTheLength : Obligations.CursorMovesByTheLength := by
  unfold Obligations.CursorMovesByTheLength
  intro i s t r hmoves hexec hresp
  obtain ⟨u, hbody, rfl⟩ := exec_committed hexec hresp
  obtain ⟨n, hpos, hlen, hin, hcur, hulen, henc⟩ := body_moves hmoves hbody
  have := s.wend.isLt
  have hn : (word n).toNat = n := Nat.mod_eq_of_lt (by omega)
  have hc : (word (s.cur.toNat + n)).toNat = s.cur.toNat + n := Nat.mod_eq_of_lt (by omega)
  rw [respond_cur, respond_len, hcur, hulen, hn, hc]
  exact ⟨rfl, hpos, hin, henc⟩

/-- The registers that differ between `s` and `t` are ones that command `i` writes: the written-by column of R14, but for
FERR and FPOS. -/
def RegisterFrame (i : Instr) (s t : State) : Prop :=
  (t.src ≠ s.src → ∃ d, i = .wrreg .src d) ∧
  (t.val ≠ s.val → i.opcode ∈ [Opcode.vdec, .rd16, .getb, .fdec]) ∧
  (t.soff ≠ s.soff → i = .sdec) ∧
  (t.slen ≠ s.slen → i = .sdec) ∧
  (t.hdr ≠ s.hdr → i.opcode ∈ [Opcode.hdec, .fdec]) ∧
  (t.oend ≠ s.oend → i.opcode = .fdec ∨ ∃ d, i = .wrreg .oend d) ∧
  (t.wend ≠ s.wend → i.opcode ∈ [Opcode.fdec, .fexit] ∨ ∃ d, i = .wrreg .wend d) ∧
  (t.cur ≠ s.cur → movesBytes i = true ∨ i = .fexit ∨ ∃ d, i = .wrreg .cur d) ∧
  (t.len ≠ s.len → movesBytes i = true ∨ i = .fexit)

theorem registerFrame_wrreg {s t : State} {q : Reg} {d r : Word} (h : wrreg q d s = .ok (t, r)) :
    RegisterFrame (.wrreg q d) s t := by
  obtain ⟨-, ⟨hq, -, rfl⟩ | ⟨-, rfl⟩⟩ := wrreg_eq_ok h
  · simp only [List.mem_cons, List.not_mem_nil, or_false] at hq
    rcases hq with rfl | rfl | rfl | rfl <;> simp [RegisterFrame]
  · simp [RegisterFrame]

theorem body_registerFrame {i : Instr} {s u : State} {r : Word} (h : body i s = .ok (u, r)) : RegisterFrame i s u := by
  rcases body_cases h with ⟨bs, -, hmoves, -, -, -, -, rfl, -⟩ | ⟨hw, -⟩
  · simp [RegisterFrame, State.emitted, hmoves]
  cases i <;> simp only [body] at h
  case venc | senc | wr16 | fenc | putb => exact nomatch hw
  case wrreg => exact registerFrame_wrreg h
  case nop | rdreg => cases h; simp [RegisterFrame]
  case fexit => cases h; simp [RegisterFrame, Instr.opcode]
  case vdec => obtain ⟨w, n, -, rfl, -⟩ := vdec_eq_ok h; simp [RegisterFrame, Instr.opcode, movesBytes]
  case sdec => obtain ⟨-, -, rfl, -⟩ := sdec_eq_ok.1 h; simp [RegisterFrame, movesBytes]
  case rd16 => obtain ⟨-, -, rfl, -⟩ := rd16_eq_ok.1 h; simp [RegisterFrame, Instr.opcode, movesBytes]
  case fdec =>
    obtain ⟨-, b, w, n, -, -, -, -, rfl, -⟩ := fdec_eq_ok.1 h
    simp [RegisterFrame, Instr.opcode, movesBytes]
  case hdec => obtain ⟨-, b, -, rfl, -⟩ := hdec_eq_ok.1 h; simp [RegisterFrame, Instr.opcode, movesBytes]
  case getb => obtain ⟨-, -, rfl, -⟩ := getb_eq_ok.1 h; simp [RegisterFrame, Instr.opcode, movesBytes]

/-- Settles O52: a success commits what body_registerFrame says, a failure changes FERR, FPOS and the response only. -/
theorem registersAreWrittenOnlyByTheirCommands : Obligations.RegistersAreWrittenOnlyByTheirCommands := by
  unfold Obligations.RegistersAreWrittenOnlyByTheirCommands
  intro i s t hexec
  rcases exec_eq_next.1 hexec with ⟨u, r, hbody, rfl⟩ | ⟨c, -, rfl⟩
  · obtain ⟨hparams, hhost, hdraw, -⟩ := body_rest hbody
    have hregs := body_registerFrame hbody
    exact ⟨hparams, hhost, hdraw, hregs⟩
  · simp

end Sys2Proof.Machine
end

section
/-! With no byte left in the window every command that needs one fails (10_state.md R27; 70_reset_and_hazards.md R122). -/

namespace Sys2Proof.Machine

theorem varDec_of_le (s : State) {p e : Nat} (h : e ≤ p) : varDec s p e = .error (.raised .truncated) := by
  rw [varDec, varDecFrom_succ, check_neg (by omega), error_bind]

theorem senc_of_fits {s : State} {n : Word} (hn : n.toNat ≤ 65535) (hsrc : s.src.toNat + n.toNat ≤ s.params.bufSize)
    (hwin : ¬ s.inWin (2 + n.toNat)) : senc n s = .error (.raised .bufferTooShort) := by
  rw [senc, check_pos hn, ok_bind, check_pos hsrc, ok_bind, check_neg hwin, error_bind]

/-- FENC of operands that R86 accepts is the writing of its bytes. -/
theorem fenc_eq_emit {t f : Nibble} {rl : BitVec 28} (hlo : 1 ≤ t.toNat) (hhi : t.toNat ≤ 14)
    (hzero : 12 ≤ t.toNat → rl.toNat = 0) (hqos : ¬ (t.toNat = 3 ∧ f.toNat / 2 % 4 = 3)) (s : State) :
    fenc t f rl s = emit s (hdrByte t f :: encBytes rl.toNat) := by
  have htype : t ≠ 0 ∧ t ≠ 15 := by
    constructor <;> rintro rfl <;> simp at hlo hhi
  have hlength : ¬ (zeroLengthKind t = true ∧ rl ≠ 0) := by
    rintro ⟨hk, hne⟩
    exact hne (BitVec.eq_of_toNat_eq (hzero ((zeroLengthKind_iff t).1 hk).1))
  have hflags : badQos t f = false := by
    rwa [← Bool.not_eq_true, badQos_iff]
  rw [fenc, check_pos htype, ok_bind, check_pos hlength, ok_bind, check_pos hflags, ok_bind]

section EmptyWindow

variable {s : State} (hempty : s.wend.toNat ≤ s.cur.toNat)
include hempty

theorem not_inWin_of_empty {n : Nat} (hn : 1 ≤ n) : ¬ s.inWin n := by
  simp only [State.inWin]; omega

theorem emit_of_empty {bs : List Byte} (hbs : 1 ≤ bs.length) : emit s bs = .error (.raised .bufferTooShort) :=
  emit_short (by omega)

/-- The window test that every reader of the cursor begins with fails (R32). -/
theorem check_inWin_of_empty {n : Nat} (hn : 1 ≤ n) (c : Status) : check (s.inWin n) c = .error (.raised c) :=
  check_neg (not_inWin_of_empty hempty hn) c

theorem sdec_of_empty : sdec s = .error (.raised .truncated) := by
  rw [sdec, check_inWin_of_empty hempty (by decide), error_bind]

theorem rd16_of_empty : rd16 s = .error (.raised .truncated) := by
  rw [rd16, check_inWin_of_empty hempty (by decide), error_bind]

theorem getb_of_empty : getb s = .error (.raised .truncated) := by
  rw [getb, check_inWin_of_empty hempty (by decide), error_bind]

theorem headerByte_of_empty (e : Nibble) : headerByte s e = .error (.raised .truncated) := by
  rw [headerByte, check_inWin_of_empty hempty (by decide), error_bind]

theorem fdec_of_empty {e : Nibble} (he : e ≠ 15) : fdec e s = .error (.raised .truncated) := by
  rw [fdec, check_pos he, ok_bind, headerByte_of_empty hempty, error_bind]

end EmptyWindow

/-- Settles O53: the decoders stop at their first window test, the encoders pass their operand checks and then find no room
for the one byte or more they write. -/
theorem emptyWindowFailsEveryBufferCommand : Obligations.EmptyWindowFailsEveryBufferCommand := by
  unfold Obligations.EmptyWindowFailsEveryBufferCommand
  intro s hempty
  refine ⟨?vdec, ?sdec, ?rd16, ?getb, fun e he => ⟨?hdec, ?fdec⟩, fun v hv => ?venc, fun n hn hsrc => ?senc,
    fun w hw => ?wr16, fun d hd => ?putb, fun t f rl hlo hhi hzero hqos => ?fenc⟩ <;> apply failsWith_of_raised
  case vdec => exact vdec_eq_error.2 (varDec_of_le s hempty)
  case sdec => exact sdec_of_empty hempty
  case rd16 => exact rd16_of_empty hempty
  case getb => exact getb_of_empty hempty
  case hdec => exact hdec_eq_error.2 (.inr ⟨he, headerByte_of_empty hempty e⟩)
  case fdec => exact fdec_of_empty hempty he
  case venc =>
    have hlen : 1 ≤ (encBytes v.toNat).length := by rw [encBytes_length]; exact (encLen_pos _).1
    exact venc_eq_error.2 (.inr ⟨hv, emit_of_empty hempty hlen⟩)
  case senc => exact senc_of_fits hn hsrc (not_inWin_of_empty hempty (by omega))
  case wr16 => exact wr16_eq_error.2 (.inr ⟨hw, emit_of_empty hempty (by simp [be16Bytes])⟩)
  case putb => exact putb_eq_error.2 (.inr ⟨hd, emit_of_empty hempty (by simp)⟩)
  case fenc =>
    have hfenc := fenc_eq_emit hlo hhi hzero hqos s
    exact hfenc.trans (emit_of_empty hempty (by simp))

end Sys2Proof.Machine
end

section
/-! What memory accesses do to BUF and need of it: the window they stay in, what a writer changes and a reader leaves, and
what a command that fails leaves for its next try (20_memory.md R31 to R33, R38, R39, R43). -/

namespace Sys2Proof.Machine

/-! ### Reading what was written (R31, R33) -/

theorem bytesAt_storeAll (s : State) (a : Nat) (bs : List Byte) :
    { s with mem := s.mem.storeAll a bs }.bytesAt a bs.length = bs := by
  refine List.ext_getElem (bytesAt_length ..) fun k _ hk => ?_
  rw [bytesAt_getElem, byteAt_storeAll s a k bs hk]

/-- Settles O47: inside BUF the read returns the stored bytes and the frame is that of storeAll; beyond it both accesses
stop with the fault. -/
theorem bufferReadsWhatWasWritten : Obligations.BufferReadsWhatWasWritten := by
  unfold Obligations.BufferReadsWhatWasWritten
  intro s a bs
  constructor
  · intro hin
    exact ⟨_, memWrite_eq_ok.2 ⟨hin, rfl⟩, rfl, memRead_eq_ok.2 ⟨hin, bytesAt_storeAll s a bs⟩,
      fun x hx => byteAt_storeAll_other s a x bs hx⟩
  · intro hout
    exact ⟨memWrite_eq_error.2 ⟨hout, rfl⟩, memRead_eq_error.2 ⟨hout, rfl⟩⟩

/-! ### The window (R32) -/

/-- Settles O13: exec faults only where its pseudocode does, and the end of a command never refuses. -/
theorem faultsNeedAnIllegalWindow : Obligations.FaultsNeedAnIllegalWindow := by
  unfold Obligations.FaultsNeedAnIllegalWindow
  exact fun i s => ⟨fun _ hfault => body_fault (exec_eq_fault.1 hfault), exec_ne_refused i s⟩

/-! ### The commands that write no byte (R38) -/

theorem body_byteAt_of_writesNothing {i : Instr} {s u : State} {r : Word} (hi : writesNothing i = true)
    (h : body i s = .ok (u, r)) (a : Nat) : u.byteAt a = s.byteAt a := by
  obtain ⟨-, -, hdraw, -⟩ := body_rest h
  rcases body_cases h with ⟨_, hwrites, -⟩ | ⟨-, hmem⟩
  · exact absurd (hi.symm.trans hwrites) (by decide)
  · exact byteAt_congr hmem hdraw a

/-- Settles O48: a reader that succeeds commits no byte, and a failure writes none. -/
theorem readersLeaveTheBuffer : Obligations.ReadersLeaveTheBuffer := by
  unfold Obligations.ReadersLeaveTheBuffer
  intro i s t hi hexec a
  rcases exec_eq_next.1 hexec with ⟨u, r, hbody, rfl⟩ | ⟨c, -, rfl⟩
  · exact body_byteAt_of_writesNothing hi hbody a
  · rfl

/-! ### String views (R43) -/

theorem byteAt_emitted_singleton (s : State) (b : Byte) (x : Nat) :
    (s.emitted [b]).byteAt x = if x = s.cur.toNat then b else s.byteAt x := by
  split
  case isTrue h => subst h; exact byteAt_storeAll s s.cur.toNat 0 [b] Nat.one_pos
  case isFalse h => exact byteAt_storeAll_other s s.cur.toNat x [b] (by simp only [List.length_singleton]; omega)

/-- A range of bytes after the byte at `c` became `b`. -/
theorem bytesAt_of_byteAt_ite {s t : State} {c : Nat} {b : Byte}
    (h : ∀ x, t.byteAt x = if x = c then b else s.byteAt x) (a n : Nat) :
    t.bytesAt a n = if a ≤ c then (s.bytesAt a n).set (c - a) b else s.bytesAt a n := by
  split
  case isTrue hle =>
    refine List.ext_getElem (by simp) fun k _ _ => ?_
    have hindex : c - a = k ↔ a + k = c := by omega
    simp only [List.getElem_set, bytesAt_getElem, h, hindex]
  case isFalse hlt => exact bytesAt_congr fun k _ => by rw [h, if_neg (by omega)]

/-- Settles O38: PUTB writes the one byte at CUR, and the view is read anew from BUF at the same SOFF and SLEN. -/
theorem viewFollowsTheBuffer : Obligations.ViewFollowsTheBuffer := by
  unfold Obligations.ViewFollowsTheBuffer
  intro s t d r hexec hresp
  obtain ⟨u, hbody, rfl⟩ := exec_committed hexec hresp
  obtain ⟨-, hemit⟩ := putb_eq_ok.1 hbody
  obtain ⟨-, -, rfl, -⟩ := emit_eq_ok.1 hemit
  have hbyte : d.extractLsb' 0 8 = BitVec.ofNat 8 d.toNat := rfl
  rw [hbyte]
  exact ⟨rfl, rfl, bytesAt_of_byteAt_ite (byteAt_emitted_singleton s _) s.soff.toNat s.slen.toNat⟩

/-! ### A command that fails, issued again (R39) -/

/-- How a part of the pseudocode ends: that it succeeds, whatever with, or its stop. -/
def ending {α : Type} (c : Cmd α) : Cmd Unit := c >>= fun _ => .ok ()

theorem ending_eq_error {α : Type} {c : Cmd α} {e : Stop} : ending c = .error e ↔ c = .error e := by
  simp [ending, bind_eq_error]

theorem ending_bind {α β : Type} (c : Cmd α) (f : α → Cmd β) : ending (c >>= f) = (c >>= fun a => ending (f a)) :=
  bind_assoc ..

theorem ending_emit (s : State) (bs : List Byte) :
    ending (emit s bs) = (check (s.inWin bs.length) .bufferTooShort >>= fun _ =>
      if s.cur.toNat + bs.length ≤ s.params.bufSize then .ok () else .error (.fault (.outsideBuffer s.cur.toNat))) := by
  rw [emit, ending_bind]
  congr 1
  funext
  rw [memWrite, ending_bind]
  split <;> rfl

/-- No command looks at FERR, FPOS or the last response before it commits: a failure leaves every command's ending. -/
theorem ending_body_afterFailure (i : Instr) (s : State) (c : Status) (opc : Byte) :
    ending (body i (s.afterFailure c opc)) = ending (body i s) := by
  cases i
  case nop | rdreg | fexit => rfl
  case wrreg q d => cases q <;> simp only [body, wrreg, writeAddress, ending_bind] <;> rfl
  case venc | senc | wr16 | fenc | putb =>
    simp only [body, venc, senc, wr16, fenc, putb, ending_bind, ending_emit]; rfl
  case vdec | sdec | rd16 | fdec | hdec | getb =>
    simp only [body, vdec, sdec, rd16, fdec, hdec, getb, ending_bind]; rfl

theorem afterFailure_idem (s : State) (c : Status) (opc : Byte) :
    (s.afterFailure c opc).afterFailure c opc = s.afterFailure c opc := by
  by_cases hfirst : s.ferr.toNat % 16 = 0 <;> simp [State.afterFailure, hfirst]

/-- Settles O16: the same command stops the same way after its failure, and the capture it would repeat is there. -/
theorem failureIsIdempotent : Obligations.FailureIsIdempotent := by
  unfold Obligations.FailureIsIdempotent
  intro i s t c r hexec hresp hc
  rcases exec_eq_next.1 hexec with ⟨u, r', -, rfl⟩ | ⟨c', hbody, rfl⟩
  · cases hresp; exact absurd rfl hc
  · have hagain : body i (s.afterFailure c' i.opcode.byte) = .error (.raised c') := by
      rwa [← ending_eq_error, ending_body_afterFailure, ending_eq_error]
    exact exec_eq_next.2 (.inr ⟨c', hagain, (afterFailure_idem ..).symm⟩)

end Sys2Proof.Machine
end

section
/-! What a decoder does depends on no byte of BUF outside the window: its reads, hence its pseudocode, hence its outcome
(20_memory.md R32; 42_header.md R85). -/

namespace Sys2Proof.Machine

/-- The same registers over another BUF: other written bytes and another draw of the unwritten ones. -/
def State.withBuf (s : State) (m : Memory) (d : Nat) : State := { s with mem := m, draw := d }

@[simp] theorem withBuf_cur (s : State) (m : Memory) (d : Nat) : (s.withBuf m d).cur = s.cur := rfl

@[simp] theorem withBuf_wend (s : State) (m : Memory) (d : Nat) : (s.withBuf m d).wend = s.wend := rfl

/-- What a decoder commits and answers, over another BUF. -/
def withBufResult (m : Memory) (d : Nat) (p : State × Word) : State × Word := (p.1.withBuf m d, p.2)

/-- Under a check only the case that it passes matters. -/
theorem check_bind_congr {α : Type} {p : Prop} [Decidable p] {c : Status} {f g : Unit → Cmd α}
    (h : p → f () = g ()) : (check p c >>= f) = (check p c >>= g) := by
  by_cases hp : p
  · rw [check_pos hp, ok_bind, ok_bind, h hp]
  · rw [check_neg hp, error_bind, error_bind]

section Window

variable {s : State} {m : Memory} {d : Nat}
  (hwin : ∀ a, s.cur.toNat ≤ a → a < s.wend.toNat → (s.withBuf m d).byteAt a = s.byteAt a)
include hwin

/-! ### The reads -/

theorem memByte_withBuf {a : Nat} (hlo : s.cur.toNat ≤ a) (hhi : a < s.wend.toNat) :
    memByte (s.withBuf m d) a = memByte s a := by
  rw [memByte, hwin a hlo hhi]; rfl

theorem memBe16_withBuf (hin : s.inWin 2) : memBe16 (s.withBuf m d) s.cur.toNat = memBe16 s s.cur.toNat := by
  rw [memBe16, memByte_withBuf hwin (by omega) (by omega), memByte_withBuf hwin (by omega) (by omega)]; rfl

theorem varDecFrom_withBuf {p : Nat} (hp : s.cur.toNat ≤ p) (k : Nat) :
    ∀ i v, varDecFrom (s.withBuf m d) p s.wend.toNat k i v = varDecFrom s p s.wend.toNat k i v := by
  induction k with
  | zero => intros; rfl
  | succ k ih =>
    intro i v
    rw [varDecFrom_succ, varDecFrom_succ]
    refine check_bind_congr fun hin => ?_
    simp only [memByte_withBuf hwin (Nat.le_add_right_of_le hp) hin, ih]
    rfl

theorem varDec_withBuf {p : Nat} (hp : s.cur.toNat ≤ p) :
    varDec (s.withBuf m d) p s.wend.toNat = varDec s p s.wend.toNat :=
  varDecFrom_withBuf hwin hp 4 0 0

theorem headerByte_withBuf (e : Nibble) : headerByte (s.withBuf m d) e = headerByte s e := by
  refine check_bind_congr fun hin => ?_
  rw [withBuf_cur, memByte_withBuf hwin (Nat.le_refl _) hin]

/-! ### The decoders -/

theorem getb_withBuf : getb (s.withBuf m d) = withBufResult m d <$> getb s := by
  rw [getb, getb, map_bind]
  refine check_bind_congr fun hin => ?_
  rw [withBuf_cur, memByte_withBuf hwin (Nat.le_refl _) hin, map_bind]
  rfl

theorem rd16_withBuf : rd16 (s.withBuf m d) = withBufResult m d <$> rd16 s := by
  rw [rd16, rd16, map_bind]
  refine check_bind_congr fun hin => ?_
  rw [withBuf_cur, memBe16_withBuf hwin hin, map_bind]
  rfl

theorem sdec_withBuf : sdec (s.withBuf m d) = withBufResult m d <$> sdec s := by
  rw [sdec, sdec, map_bind]
  refine check_bind_congr fun hin => ?_
  simp only [withBuf_cur, memBe16_withBuf hwin hin, map_bind]
  rfl

theorem vdec_withBuf : vdec (s.withBuf m d) = withBufResult m d <$> vdec s := by
  rw [vdec, vdec, withBuf_cur, withBuf_wend, varDec_withBuf hwin (Nat.le_refl _), map_bind]
  rfl

theorem hdec_withBuf (e : Nibble) : hdec e (s.withBuf m d) = withBufResult m d <$> hdec e s := by
  simp only [hdec, headerByte_withBuf hwin, map_bind]
  rfl

theorem fdec_withBuf (e : Nibble) : fdec e (s.withBuf m d) = withBufResult m d <$> fdec e s := by
  simp only [fdec, headerByte_withBuf hwin, withBuf_cur, withBuf_wend,
    varDec_withBuf hwin (Nat.le_succ _), map_bind]
  rfl

theorem body_withBuf {i : Instr} (hi : readsAtCursor i = true) :
    body i (s.withBuf m d) = withBufResult m d <$> body i s := by
  cases i <;> simp only [body]
  case nop | wrreg | rdreg | venc | senc | wr16 | fenc | fexit | putb => exact nomatch hi
  case vdec => exact vdec_withBuf hwin
  case sdec => exact sdec_withBuf hwin
  case rd16 => exact rd16_withBuf hwin
  case fdec e => exact fdec_withBuf hwin e
  case hdec e => exact hdec_withBuf hwin e
  case getb => exact getb_withBuf hwin

end Window

/-- Settles O50: over the other BUF the pseudocode stops the same way, or commits and answers the same but for BUF. -/
theorem decodersSeeOnlyTheWindow : Obligations.DecodersSeeOnlyTheWindow := by
  unfold Obligations.DecodersSeeOnlyTheWindow
  intro i s t m d hi hwin hexec
  have hbody : body i (s.withBuf m d) = withBufResult m d <$> body i s := body_withBuf hwin hi
  rcases exec_eq_next.1 hexec with ⟨u, r, hok, rfl⟩ | ⟨c, hraised, rfl⟩
  · rw [hok] at hbody
    exact exec_ok hbody
  · rw [hraised] at hbody
    exact failsWith_of_raised hbody

end Sys2Proof.Machine
end

section
/-! Decoding and encoding are inverse to each other, and the requests that do not decode are those R49 lists
(30_encoding.md R45 to R50). -/

namespace Sys2Proof

/-! ### Decoding what was encoded -/

/-- A CMD word made of a known opcode and a SEL is decoded by that opcode's operand rule (R45, R47). -/
theorem decode_cmdWord (o : Opcode) (sel : Nibble) (data : Word) :
    decode (cmdWord sel o.byte) data = decodeOperands o sel data := by
  simp [decode]

/-- Each opcode's operand rule reads back the operands of a well-formed command (R46, R48). -/
theorem decodeOperands_encoded {i : Instr} (hwf : i.wf = true) :
    decodeOperands i.opcode i.sel i.data = .ok i := by
  cases i
  case wrreg r d =>
    have hwritable : r.writable = true := hwf
    simp [Instr.opcode, Instr.sel, Instr.data, decodeOperands, decodeWrreg, hwritable]
  case rdreg r => simp [Instr.opcode, Instr.sel, decodeOperands, decodeRdreg]
  case fenc t flags rl =>
    have htype : ¬ (t = 0 ∨ t = 15) := by simpa [Instr.wf] using hwf
    simp only [Instr.opcode, Instr.sel, Instr.data, decodeOperands, decodeFenc, if_neg htype,
      fencFlags_fencData, fencLength_fencData]
  case fdec e | hdec e =>
    have htype : e ≠ 15 := by simpa [Instr.wf] using hwf
    exact if_neg htype
  all_goals rfl

/-- Settles O1: the encoded CMD word leads to the operand rule of the command's own opcode, which reads the operands back. -/
theorem decodeOfEncodeIsTheCommand : Obligations.DecodeOfEncodeIsTheCommand := by
  unfold Obligations.DecodeOfEncodeIsTheCommand
  exact fun i hwf => (decode_cmdWord i.opcode i.sel i.data).trans (decodeOperands_encoded hwf)

/-! ### The ignored DATA word (R46) -/

/-- The opcodes that ignore DATA (R46). -/
def Opcode.ignoringData : List Opcode := [.nop, .rdreg, .vdec, .sdec, .rd16, .hdec, .fdec, .fexit, .getb]

theorem mem_ignoringData_iff_byte (o : Opcode) :
    o ∈ Opcode.ignoringData ↔ o.byte.toNat ∈ [0x00, 0x02, 0x11, 0x21, 0x23, 0x32, 0x31, 0x33, 0x41] := by
  cases o <;> decide

theorem decodeOperands_ignoringData {o : Opcode} (ho : o ∈ Opcode.ignoringData) (sel : Nibble) (d d' : Word) :
    decodeOperands o sel d = decodeOperands o sel d' := by
  cases o
  case wrreg | venc | senc | wr16 | fenc | putb => exact absurd ho (by decide)
  all_goals rfl

/-- A command carries its DATA word, but for one that ignores it, which encodes 0 (R46, R53). -/
theorem data_of_decodeOperands {o : Opcode} {sel : Nibble} {data : Word} {i : Instr}
    (h : decodeOperands o sel data = .ok i) :
    i.data = data ∨ i.data = 0 ∧ o ∈ Opcode.ignoringData := by
  cases o <;>
    simp only [decodeOperands, withoutSel, decodeWrreg, decodeRdreg, decodeFenc, decodeExpected] at h
  case wrreg =>
    split at h
    · exact nomatch h
    · split at h <;> cases h
      exact .inl rfl
  case fenc =>
    split at h <;> cases h
    exact .inl (fencData_of_fields data)
  case venc | senc | wr16 | putb =>
    split at h <;> cases h
    exact .inl rfl
  all_goals
    split at h <;> cases h
    exact .inr ⟨rfl, by decide⟩

/-- Settles O2: the fields of a CMD word that decodes are those of the command, and a CMD word is its fields. -/
theorem encodeOfDecodeIsTheRequest : Obligations.EncodeOfDecodeIsTheRequest := by
  unfold Obligations.EncodeOfDecodeIsTheRequest
  intro cmd data i h
  obtain ⟨o, hrsvd, hopc, hoperands⟩ := decode_eq_ok h
  obtain ⟨rfl, hsel, hwf⟩ := decodeOperands_eq_ok hoperands
  have hcmd : (encode i).1 = cmd := by
    rw [encode, hsel, hopc, cmdWord_of_fields cmd hrsvd]
  exact ⟨hwf, hcmd, data_of_decodeOperands hoperands⟩

theorem decode_ignoringData {cmd : Word}
    (h : cmd.toNat % 256 ∈ [0x00, 0x02, 0x11, 0x21, 0x23, 0x32, 0x31, 0x33, 0x41]) (d d' : Word) :
    decode cmd d = decode cmd d' := by
  unfold decode
  split
  · rfl
  · split
    · rfl
    · next o ho =>
      rw [← opcOf_toNat, ← byte_of_ofByte ho, ← mem_ignoringData_iff_byte] at h
      exact decodeOperands_ignoringData h _ d d'

/-! ### Illegal requests (R49) -/

/-- The SEL values an opcode refuses (R49 c to f). -/
def Opcode.RefusesSel : Opcode → Nibble → Prop
  | .wrreg, sel => 11 ≤ sel.toNat ∨ sel.toNat ∈ [4, 5, 6, 7, 8, 10]
  | .rdreg, sel => 11 ≤ sel.toNat
  | .fenc, sel => sel.toNat = 0 ∨ sel.toNat = 15
  | .fdec, sel | .hdec, sel => sel.toNat = 15
  | .nop, sel | .venc, sel | .vdec, sel | .senc, sel | .sdec, sel | .wr16, sel | .rd16, sel | .fexit, sel
  | .putb, sel | .getb, sel => sel.toNat ≠ 0

theorem Reg.sel_lt (r : Reg) : r.sel.toNat < 11 := by cases r <;> decide

theorem Reg.readOnly_iff_sel (r : Reg) : ¬ r.writable = true ↔ r.sel.toNat ∈ [4, 5, 6, 7, 8, 10] := by
  cases r <;> decide

theorem ofSel_none_iff (sel : Nibble) : Reg.ofSel sel = none ↔ 11 ≤ sel.toNat := by
  revert sel; decide

theorem ofByte_none_iff (b : Byte) : Opcode.ofByte b = none ↔ b.toNat ∉
    [0x00, 0x01, 0x02, 0x10, 0x11, 0x20, 0x21, 0x22, 0x23, 0x30, 0x31, 0x32, 0x33, 0x40, 0x41] := by
  revert b; decide

/-- Every check of the decoder has this form. -/
theorem ite_error_iff {p : Prop} [Decidable p] {e : Illegal} {i : Instr} :
    (∃ r, (if p then .error e else .ok i : Except Illegal Instr) = .error r) ↔ p := by
  by_cases h : p <;> simp [h]

theorem withoutSel_error_iff (sel : Nibble) (i : Instr) : (∃ r, withoutSel sel i = .error r) ↔ sel.toNat ≠ 0 := by
  rw [withoutSel, ← ite_not, ite_error_iff, ← BitVec.toNat_inj]; rfl

theorem decodeExpected_error_iff (sel : Nibble) (i : Instr) :
    (∃ r, decodeExpected sel i = .error r) ↔ sel.toNat = 15 := by
  rw [decodeExpected, ite_error_iff, ← BitVec.toNat_inj]; rfl

theorem decodeFenc_error_iff (sel : Nibble) (data : Word) :
    (∃ r, decodeFenc sel data = .error r) ↔ sel.toNat = 0 ∨ sel.toNat = 15 := by
  rw [decodeFenc, ite_error_iff, ← BitVec.toNat_inj, ← BitVec.toNat_inj]; rfl

theorem decodeRdreg_error_iff (sel : Nibble) : (∃ r, decodeRdreg sel = .error r) ↔ 11 ≤ sel.toNat := by
  rw [← ofSel_none_iff, decodeRdreg]
  cases Reg.ofSel sel <;> simp

theorem decodeWrreg_error_iff (sel : Nibble) (data : Word) :
    (∃ r, decodeWrreg sel data = .error r) ↔ 11 ≤ sel.toNat ∨ sel.toNat ∈ [4, 5, 6, 7, 8, 10] := by
  rw [decodeWrreg]
  cases hreg : Reg.ofSel sel with
  | none => exact iff_of_true ⟨_, rfl⟩ (.inl ((ofSel_none_iff sel).1 hreg))
  | some q =>
    obtain rfl := sel_of_ofSel hreg
    rw [← Reg.readOnly_iff_sel, or_iff_right (Nat.not_le.2 q.sel_lt)]
    dsimp only
    rw [← ite_not, ite_error_iff]

/-- An operand rule refuses its SEL values, whatever DATA is. -/
theorem decodeOperands_error_iff (o : Opcode) (sel : Nibble) (data : Word) :
    (∃ r, decodeOperands o sel data = .error r) ↔ o.RefusesSel sel := by
  cases o
  case wrreg => exact decodeWrreg_error_iff sel data
  case rdreg => exact decodeRdreg_error_iff sel
  case fenc => exact decodeFenc_error_iff sel data
  case fdec | hdec => exact decodeExpected_error_iff sel _
  all_goals exact withoutSel_error_iff sel _

/-- With RSVD 0 and a known opcode, the clauses of R49 left are those about SEL. -/
theorem requestIllegal_iff_refusesSel {cmd : Word} {o : Opcode} (hrsvd : cmd.toNat / 4096 = 0)
    (ho : o.byte = opcOf cmd) : Machine.RequestIllegal cmd ↔ o.RefusesSel (selOf cmd) := by
  have hopc : cmd.toNat % 256 = o.byte.toNat := by rw [ho, opcOf_toNat]
  simp only [Machine.RequestIllegal, hrsvd, hopc, ← selOf_toNat]
  generalize selOf cmd = sel
  cases o <;> simp [Opcode.byte, Opcode.RefusesSel]

/-- R49: the decoder refuses the requests its clauses (a) to (f) name, and no others. -/
theorem decode_error_iff (cmd data : Word) :
    (∃ r, decode cmd data = .error r) ↔ Machine.RequestIllegal cmd := by
  have hrsvd : rsvdOf cmd = 0 ↔ cmd.toNat / 4096 = 0 := by rw [← rsvdOf_toNat, ← BitVec.toNat_inj]; rfl
  unfold decode
  split
  case isTrue h => exact iff_of_true ⟨_, rfl⟩ (.inr (.inl (mt hrsvd.2 h)))
  case isFalse h =>
    split
    next hnone =>
      rw [ofByte_none_iff, opcOf_toNat] at hnone
      exact iff_of_true ⟨_, rfl⟩ (.inl hnone)
    next o hsome =>
      rw [decodeOperands_error_iff, requestIllegal_iff_refusesSel (hrsvd.1 (not_not.1 h)) (byte_of_ofByte hsome)]

/-- Settles O5: the words are closed terms and the decoder computes. -/
theorem writtenWordsDecode : Obligations.WrittenWordsDecode := by
  unfold Obligations.WrittenWordsDecode
  decide

end Sys2Proof
end

section
/-! The step on a request, legal or not (30_encoding.md R46, R49, R50, R52), and the assembler's lines and
pseudo-commands (R53, R55). -/

namespace Sys2Proof.Machine

/-! ### Requests -/

theorem step_issue {s : State} {cmd data : Word} {rest : List HostAction} (h : s.host = .issue cmd data :: rest) :
    step s = execute cmd data (s.withHost rest) := by
  rw [step, h]

theorem execute_of_decode {cmd data : Word} {i : Instr} (h : decode cmd data = .ok i) (s : State) :
    execute cmd data s = exec i s := by
  rw [execute, h]

/-- Settles O6: the step takes the request from the port and executes it, which runs the command it decodes to. -/
theorem stepRunsTheDecodedCommand : Obligations.StepRunsTheDecodedCommand := by
  unfold Obligations.StepRunsTheDecodedCommand
  intro s cmd data rest i hhost hdecode
  rw [step_issue hhost, execute_of_decode hdecode]
  rfl

/-- Settles O3: by R49's clauses, and because a request that no DATA makes decodable fails before anything is read. -/
theorem illegalRequestsOnlyFail : Obligations.IllegalRequestsOnlyFail := by
  unfold Obligations.IllegalRequestsOnlyFail
  refine fun cmd data => ⟨decode_error_iff cmd data, fun s rest hhost hillegal => ?_⟩
  have halways : AlwaysIllegal cmd := alwaysIllegal_of_decode fun d => (decode_error_iff cmd d).2 hillegal
  rw [step_issue hhost]
  exact halways data (s.withHost rest)

/-- Settles O4: both requests decode alike, to the same command or the same rejection. -/
theorem ignoredDataHasNoEffect : Obligations.IgnoredDataHasNoEffect := by
  unfold Obligations.IgnoredDataHasNoEffect
  intro cmd d d' s rest hopc
  rw [step_issue rfl, step_issue rfl, execute, execute, decode_ignoringData hopc d d']
  rfl

/-! ### Written programs -/

/-- Settles O54: the lines are closed terms and the assembler computes. -/
theorem assemblerWritesTheSpecsWords : Obligations.AssemblerWritesTheSpecsWords := by
  unfold Obligations.AssemblerWritesTheSpecsWords
  decide

/-- The command of PING has no remaining length and no flags, so that its two bytes are C0 00 (R55, R86). -/
theorem ping_writesAtCursor {s : State} (hbuf : s.wend.toNat ≤ s.params.bufSize)
    (hwin : s.cur.toNat + 2 ≤ s.wend.toNat) : WritesAtCursor (.fenc 12 0 0) s [0xC0, 0x00] := by
  have hfenc : fenc 12 0 0 s = emit s (hdrByte 12 0 :: encBytes 0) :=
    fenc_eq_emit (by decide) (by decide) (fun _ => rfl) (by decide) s
  have hbytes : hdrByte 12 0 :: encBytes 0 = [0xC0, 0x00] := by decide
  rw [hbytes] at hfenc
  exact writesAtCursor_of_emitted (hfenc.trans (emit_fits hbuf hwin))

/-- Settles O55: the expansions are those of R55's table, and PING's one command writes its two bytes. -/
theorem pseudoCommandsExpand : Obligations.PseudoCommandsExpand := by
  unfold Obligations.PseudoCommandsExpand
  refine ⟨fun _ _ => rfl, rfl, rfl, fun _ => rfl, rfl, fun s hbuf hwin i hi => ?_⟩
  obtain rfl := List.mem_singleton.1 hi
  exact ping_writesAtCursor hbuf hwin

end Sys2Proof.Machine
end

section
/-! The requests of the commands that do not use SEL: one CMD word each (30_encoding.md R47, R49). -/

namespace Sys2Proof

theorem Opcode.byte_injective : Function.Injective Opcode.byte := fun o o' h =>
  Option.some_injective _ (by rw [← ofByte_byte o, h, ofByte_byte])

/-- A CMD word that decodes to a command without SEL is that command's only one: RSVD, SEL and OPC are fixed. -/
theorem eq_cmdWord_of_withoutSel {o : Opcode} {i : Word → Instr}
    (ho : ∀ sel d, decodeOperands o sel d = withoutSel sel (i d)) {cmd data : Word} {j : Instr}
    (hopc : opcOf cmd = o.byte) (h : decode cmd data = .ok j) : cmd = cmdWord 0 o.byte := by
  obtain ⟨o', hrsvd, hbyte, hoperands⟩ := decode_eq_ok h
  obtain rfl : o' = o := Opcode.byte_injective (hbyte.trans hopc)
  rw [ho, withoutSel] at hoperands
  have hsel : selOf cmd = 0 := by
    by_contra hne
    rw [if_neg hne] at hoperands
    exact nomatch hoperands
  rw [← cmdWord_of_fields cmd hrsvd, hsel, hopc]

theorem onlyWord_of_withoutSel {o : Opcode} {i : Word → Instr}
    (ho : ∀ sel d, decodeOperands o sel d = withoutSel sel (i d)) : Machine.OnlyWord (cmdWord 0 o.byte) i := by
  refine ⟨fun d => ?_, fun c hopc hne => Machine.alwaysIllegal_of_decode fun d => ?_⟩
  · rw [decode_cmdWord, ho]; rfl
  · cases hdec : decode c d with
    | error r => exact ⟨r, rfl⟩
    | ok j =>
      have hbyte : opcOf c = o.byte := by
        rw [← opcOf_cmdWord 0 o.byte, ← BitVec.toNat_inj, opcOf_toNat, opcOf_toNat, hopc]
      exact absurd (eq_cmdWord_of_withoutSel ho hbyte hdec) hne

end Sys2Proof
end

section
/-! The VarInt as a number and as bytes (40_varint.md R60, R61): the encoder writes the base-128 digits of the value, the
decoder sums them, and VENC and VDEC do so at the cursor (R62, R63). -/

namespace Sys2Proof.Machine

/-! ### The length of an encoding (R60) -/

theorem encLen_eq (v : Nat) :
    encLen v = if v ≤ 127 then 1 else if v ≤ 16383 then 2 else if v ≤ 2097151 then 3 else 4 := by
  simp only [encLen, Nat.reducePow, ← Nat.lt_succ_iff]

theorem lt_pow_encLen {v : Nat} (hv : v ≤ 268435455) : v < 128 ^ encLen v := by
  rw [encLen_eq]
  split_ifs <;> omega

theorem pow_pred_encLen_le {v : Nat} (hlen : 1 < encLen v) : 128 ^ (encLen v - 1) ≤ v := by
  rw [encLen_eq] at hlen ⊢
  split_ifs at hlen ⊢ <;> omega

/-- No encoding of `v` is shorter than its canonical one: `n` groups of 7 bits hold no more than 128 ^ n values. -/
theorem encLen_le_of_lt_pow {v n : Nat} (hn : 1 ≤ n) (hv : v < 128 ^ n) : encLen v ≤ n := by
  by_contra hlong
  have hpow : 128 ^ n ≤ 128 ^ (encLen v - 1) := Nat.pow_le_pow_right (by decide) (by omega)
  have hle := pow_pred_encLen_le (v := v) (by omega)
  omega

/-- The last group of an encoding of more than one byte is not 0. -/
theorem last_group_ne_zero {v : Nat} (hv : v ≤ 268435455) (hlen : 1 < encLen v) :
    v / 128 ^ (encLen v - 1) % 128 ≠ 0 := by
  have hpos : 0 < v / 128 ^ (encLen v - 1) := Nat.div_pos (pow_pred_encLen_le hlen) (by positivity)
  have hlt : v / 128 ^ (encLen v - 1) < 128 := by
    rw [Nat.div_lt_iff_lt_mul (by positivity), ← Nat.pow_succ', Nat.succ_eq_add_one, Nat.sub_add_cancel (by omega)]
    exact lt_pow_encLen hv
  omega

theorem encBytes_isVarInt (v : Nat) : IsVarInt v (encBytes v) := by
  refine ⟨(encBytes_length v).trans (encLen_eq v), fun k hk => ?_⟩
  rw [encBytes_getElem_toNat v k hk, encBytes_length]

/-- Settles O24: the bytes are those of R60, and the last one is a group that is not 0. -/
theorem encBytesIsTheCanonicalVarInt : Obligations.EncBytesIsTheCanonicalVarInt := by
  unfold Obligations.EncBytesIsTheCanonicalVarInt
  refine fun v hv => ⟨encBytes_isVarInt v, fun hlong hzero => ?_⟩
  rw [List.getD_eq_getElem _ _ (by omega), byte_eq_zero, encBytes_getElem_toNat, encBytes_length] at hzero
  rw [encBytes_length] at hlong
  exact last_group_ne_zero hv hlong (Nat.eq_zero_of_add_eq_zero_right hzero)

/-! ### The groups of the value that was decoded (R61) -/

theorem varIntValue_succ (s : State) (p n : Nat) :
    varIntValue s p (n + 1) = varIntValue s p n + 128 ^ n * ((s.byteAt (p + n)).toNat % 128) := by
  simp [varIntValue, List.range_succ, Nat.mul_comm]

/-- Bytes that hold the first `n` groups of `v` have the value that these groups make. -/
theorem varIntValue_of_groups {s : State} {p v n : Nat}
    (h : ∀ k, k < n → (s.byteAt (p + k)).toNat % 128 = v / 128 ^ k % 128) : varIntValue s p n = v % 128 ^ n := by
  induction n with
  | zero => simp [varIntValue, Nat.mod_one]
  | succ n ih => rw [varIntValue_succ, ih fun k hk => h k (by omega), h n (by omega), Nat.mod_pow_succ]

/-- The groups of the value of `n` bytes are what their low 7 bits hold. -/
theorem group_varIntValue (s : State) (p : Nat) {n k : Nat} (hk : k < n) :
    varIntValue s p n / 128 ^ k % 128 = (s.byteAt (p + k)).toNat % 128 := by
  induction n with
  | zero => omega
  | succ n ih =>
    rw [varIntValue_succ]
    rcases Nat.lt_succ_iff_lt_or_eq.1 hk with hlt | rfl
    · obtain ⟨m, rfl⟩ := Nat.exists_eq_add_of_lt hlt
      rw [Nat.pow_succ, Nat.pow_add, Nat.mul_assoc, Nat.mul_assoc, Nat.add_mul_div_left _ _ (by positivity),
        Nat.mul_left_comm, Nat.add_mul_mod_self_left, ih hlt]
    · rw [Nat.add_mul_div_left _ _ (by positivity), Nat.div_eq_of_lt (varIntValue_lt s p k), Nat.zero_add, Nat.mod_mod]

/-! ### What the decoder answers (R61) -/

section Decoder

variable {s : State} {p e k : Nat}

/-- Where the VarInt ends in the window, only the canonical check is left. -/
theorem varDec_of_endsAt (hk : k < 4) (hwin : p + k < e) (hbuf : p + k < s.params.bufSize) (hends : VarIntEndsAt s p k) :
    varDec s p e = (check (¬ (s.params.strict = true ∧ k + 1 > 1 ∧ (s.byteAt (p + k)).toNat = 0)) .malformed >>= fun _ =>
      .ok (varIntValue s p (k + 1), k + 1)) := by
  obtain ⟨hcont, hend⟩ := hends
  have hdec := varDecFrom_ends (s := s) (p := p) (e := e) (i := 0) (v := 0) hk
  simp only [Nat.zero_add, groupSum_zero_left] at hdec
  exact hdec hbuf hcont hend hwin

theorem varDec_accepts (hk : k < 4) (hwin : p + k < e) (hbuf : p + k < s.params.bufSize) (hends : VarIntEndsAt s p k)
    (hcan : ¬ NotCanonical s p k) : varDec s p e = .ok (varIntValue s p (k + 1), k + 1) := by
  rw [varDec_of_endsAt hk hwin hbuf hends, check_pos, ok_bind]
  rintro ⟨hstrict, hlong, hzero⟩
  exact hcan ⟨hstrict, Nat.lt_of_succ_lt_succ hlong, hzero⟩

theorem varDec_refuses (hk : k < 4) (hwin : p + k < e) (hbuf : p + k < s.params.bufSize) (hends : VarIntEndsAt s p k)
    (hcan : NotCanonical s p k) : varDec s p e = .error (.raised .malformed) := by
  obtain ⟨hstrict, hlong, hzero⟩ := hcan
  rw [varDec_of_endsAt hk hwin hbuf hends, check_neg (not_not.2 ⟨hstrict, Nat.succ_lt_succ hlong, hzero⟩), error_bind]

theorem varDec_tooLong (he : e ≤ s.params.bufSize) (h : VarIntTooLong s p e) :
    varDec s p e = .error (.raised .malformed) := by
  obtain ⟨hwin, hcont⟩ := h
  exact varDecFrom_long he (by simpa using hcont) (by omega)

theorem varDec_runsOut (he : e ≤ s.params.bufSize) (h : VarIntRunsOut s p e) :
    varDec s p e = .error (.raised .truncated) := by
  obtain ⟨hwin, hcont⟩ := h
  exact varDecFrom_short he (by simpa using hcont) (by omega)

end Decoder

/-- Settles O26: the four ways VarDec can go, each by its lemma. -/
theorem varDecDecidesByTheFirstBytes : Obligations.VarDecDecidesByTheFirstBytes := by
  unfold Obligations.VarDecDecidesByTheFirstBytes
  exact fun s p e he => ⟨fun k hk hwin hends => varDec_accepts hk hwin (by omega) hends,
    fun k hk hwin hends => varDec_refuses hk hwin (by omega) hends, varDec_tooLong he, varDec_runsOut he⟩

/-- Settles O28: the value is a sum of at most four groups, and `n` groups hold only values whose encoding fits in `n`
bytes. -/
theorem canonicalEncodingIsShortest : Obligations.CanonicalEncodingIsShortest := by
  unfold Obligations.CanonicalEncodingIsShortest
  intro s p e v n hdec
  obtain ⟨j, hj, rfl, rfl, hwin, -⟩ := varDec_eq_ok hdec
  have hshort : encLen (varIntValue s p (j + 1)) ≤ j + 1 := encLen_le_of_lt_pow (by omega) (varIntValue_lt s p (j + 1))
  rw [encBytes_length]
  exact ⟨varIntValue_le s p hj, by omega, by omega, by omega, hshort⟩

/-! ### Decoding accepts canonical bytes, and when strict only those (R6, R60, R61) -/

/-- A VarInt whose last group is not 0 is as long as the canonical encoding of its value. -/
theorem encLen_varIntValue {s : State} {p j : Nat} (hj : j < 4) (hlast : 0 < j → (s.byteAt (p + j)).toNat % 128 ≠ 0) :
    encLen (varIntValue s p (j + 1)) = j + 1 := by
  refine Nat.le_antisymm (encLen_le_of_lt_pow (by omega) (varIntValue_lt s p (j + 1))) ?_
  by_contra hshort
  have hpos := (encLen_pos (varIntValue s p (j + 1))).1
  have hsmall : varIntValue s p (j + 1) < 128 ^ j :=
    (lt_pow_encLen (varIntValue_le s p hj)).trans_le (Nat.pow_le_pow_right (by decide) (by omega))
  have hgroup := group_varIntValue s p (Nat.lt_succ_self j)
  rw [Nat.div_eq_of_lt hsmall] at hgroup
  exact hlast (by omega) hgroup.symm

/-- Settles O29: the strict decoder refuses a redundant last byte, so the bytes have the length of the encoding, and then
their low bits are the groups of the value and bit 7 stands where the encoding has it. -/
theorem strictDecoderAcceptsOnlyCanonical : Obligations.StrictDecoderAcceptsOnlyCanonical := by
  unfold Obligations.StrictDecoderAcceptsOnlyCanonical
  intro s p e v n hstrict hdec
  obtain ⟨j, hj, rfl, rfl, -, -, ⟨hcont, hend⟩, hcan⟩ := varDec_eq_ok hdec
  have hlen : encLen (varIntValue s p (j + 1)) = j + 1 :=
    encLen_varIntValue hj fun hpos hzero => hcan ⟨hstrict, hpos, by omega⟩
  refine List.ext_getElem (by rw [bytesAt_length, encBytes_length, hlen]) fun k hk hk' => ?_
  rw [bytesAt_length] at hk
  apply BitVec.eq_of_toNat_eq
  rw [bytesAt_getElem, encBytes_getElem_toNat, hlen, group_varIntValue s p hk]
  split
  case isTrue hmore => have := hcont k (by omega); omega
  case isFalse hlast =>
    obtain rfl : k = j := by omega
    omega

section Encoded

variable {s : State} {p v : Nat} (hbytes : s.bytesAt p (encLen v) = encBytes v)
include hbytes

theorem byteAt_encoded {k : Nat} (hk : k < encLen v) :
    (s.byteAt (p + k)).toNat = v / 128 ^ k % 128 + if k + 1 < encLen v then 128 else 0 := by
  rw [← encBytes_getElem_toNat v k (by rwa [encBytes_length])]
  simp only [← hbytes, bytesAt_getElem]

theorem varIntEndsAt_encoded : VarIntEndsAt s p (encLen v - 1) := by
  have hpos := (encLen_pos v).1
  constructor
  · intro k hk
    rw [byteAt_encoded hbytes (by omega), if_pos (by omega)]
    omega
  · rw [byteAt_encoded hbytes (by omega), if_neg (by omega)]
    omega

theorem canonical_encoded (hv : v ≤ 268435455) : ¬ NotCanonical s p (encLen v - 1) := by
  rintro ⟨-, hlong, hzero⟩
  rw [byteAt_encoded hbytes (by omega), if_neg (by omega)] at hzero
  exact last_group_ne_zero hv (by omega) hzero

theorem varIntValue_encoded (hv : v ≤ 268435455) : varIntValue s p (encLen v) = v := by
  rw [varIntValue_of_groups (v := v) fun k hk => ?group, Nat.mod_eq_of_lt (lt_pow_encLen hv)]
  case group =>
    rw [byteAt_encoded hbytes hk]
    split <;> omega

/-- The decoder inverts the encoder, with P_STRICT_CANONICAL or without. -/
theorem varDec_encoded {e : Nat} (hv : v ≤ 268435455) (hwin : p + encLen v ≤ e)
    (hbuf : p + encLen v ≤ s.params.bufSize) : varDec s p e = .ok (v, encLen v) := by
  obtain ⟨hpos, hle⟩ := encLen_pos v
  rw [varDec_accepts (k := encLen v - 1) (by omega) (by omega) (by omega) (varIntEndsAt_encoded hbytes)
    (canonical_encoded hbytes hv), Nat.sub_add_cancel hpos, varIntValue_encoded hbytes hv]

end Encoded

/-! ### VENC and VDEC (R62, R63) -/

/-- Settles O25: the operand check, then the window test of every encoder. -/
theorem vencWritesTheVarInt : Obligations.VencWritesTheVarInt := by
  unfold Obligations.VencWritesTheVarInt
  refine ⟨onlyWord_of_withoutSel (o := .venc) fun _ _ => rfl, fun s v hbuf => ⟨fun hbig => ?range, fun hv => ?encoded⟩⟩
  case range => exact failsWith_of_raised (venc_eq_error.2 (.inl ⟨hbig, rfl⟩))
  case encoded =>
    refine ⟨encBytes v.toNat, encBytes_isVarInt v.toNat, fun hshort => ?short, fun hfits => ?fits⟩
    case short => exact failsWith_of_raised (venc_eq_error.2 (.inr ⟨hv, emit_short hshort⟩))
    case fits => exact writesAtCursor_of_emitted (venc_eq_ok.2 ⟨hv, emit_fits hbuf hfits⟩)

theorem exec_vdec_of_ok {s : State} {w n : Nat} (h : varDec s s.cur.toNat s.wend.toNat = .ok (w, n)) :
    exec .vdec s = .next { s with
      val := word w, len := word n, cur := word (s.cur.toNat + n), response := some ⟨.ok, word w⟩ } :=
  exec_ok (i := .vdec) (vdec_of_ok h)

theorem vdec_failsWith {s : State} {c : Status} (h : varDec s s.cur.toNat s.wend.toNat = .error (.raised c)) :
    FailsWith .vdec s c :=
  failsWith_of_raised (vdec_eq_error.2 h)

/-- Settles O27: VDEC commits what the decoding function answers at the cursor, or fails as it stops. -/
theorem vdecReadsTheVarInt : Obligations.VdecReadsTheVarInt := by
  unfold Obligations.VdecReadsTheVarInt
  refine ⟨onlyWord_of_withoutSel (o := .vdec) fun _ _ => rfl, fun s hbuf => ?_⟩
  obtain ⟨haccept, hrefuse, hlong, hshort⟩ := varDecDecidesByTheFirstBytes s s.cur.toNat s.wend.toNat hbuf
  exact ⟨fun k hk hwin hends hcan => exec_vdec_of_ok (haccept k hk hwin hends hcan),
    fun k hk hwin hends hcan => vdec_failsWith (hrefuse k hk hwin hends hcan),
    fun h => vdec_failsWith (hlong h), fun h => vdec_failsWith (hshort h)⟩

/-- VDEC at an encoding that the window holds answers the encoded value. -/
theorem exec_vdec_encoded {s : State} {v : Word} (hv : v.toNat ≤ 268435455)
    (hbytes : s.bytesAt s.cur.toNat (encLen v.toNat) = encBytes v.toNat) (hwin : s.inWin (encLen v.toNat))
    (hbuf : s.cur.toNat + encLen v.toNat ≤ s.params.bufSize) :
    exec .vdec s = .next { s with
      val := v, len := word (encLen v.toNat), cur := word (s.cur.toNat + encLen v.toNat), response := some ⟨.ok, v⟩ } := by
  have hword : word v.toNat = v := (BitVec.ofNat_toNat 32 v).trans (BitVec.setWidth_eq v)
  rw [exec_vdec_of_ok (varDec_encoded hbytes hv hwin hbuf), hword]

/-- Settles O31: VENC committed the encoding at the old cursor, and the decoder inverts the encoder there. -/
theorem vdecInvertsVenc : Obligations.VdecInvertsVenc := by
  unfold Obligations.VdecInvertsVenc
  intro s t v r hexec hresp
  obtain ⟨u, hbody, rfl⟩ := exec_committed hexec hresp
  obtain ⟨hv, hemit⟩ := venc_eq_ok.1 hbody
  obtain ⟨hwin, hbuf, rfl, -⟩ := emit_eq_ok.1 hemit
  have hbytes := bytesAt_storeAll s s.cur.toNat (encBytes v.toNat)
  rw [encBytes_length] at hwin hbuf hbytes
  rw [State.emitted, encBytes_length]
  exact exec_vdec_encoded hv hbytes hwin hbuf

end Sys2Proof.Machine
end

section
/-! The 2-byte big-endian field and the length-prefixed string at the cursor (20_memory.md R35; 41_string.md R70 to R74):
what the writers write and the readers read, and that the readers invert the writers (R73, R74; 43_control.md R93, R94). -/

namespace Sys2Proof.Machine

theorem word_of_toNat (v : Word) : word v.toNat = v := by simp [word]

/-! ### Bytes of BUF -/

/-- A range of bytes is its first `m` bytes and the `n` after them. -/
theorem bytesAt_add (s : State) (a m n : Nat) : s.bytesAt a (m + n) = s.bytesAt a m ++ s.bytesAt (a + m) n := by
  simp [State.bytesAt, List.range_add, Nat.add_assoc]

/-- The two bytes of a field in numbers (R35). -/
theorem be16Bytes_eq (n : Nat) : be16Bytes n = [BitVec.ofNat 8 (n / 256), BitVec.ofNat 8 (n % 256)] := by
  have hlow : n &&& 0xFF = n % 256 := Nat.and_two_pow_sub_one_eq_mod n 8
  rw [be16Bytes, hlow, Nat.shiftRight_eq_div_pow]

theorem be16_ofNat {n : Nat} (hn : n ≤ 65535) : be16 (BitVec.ofNat 8 (n / 256)) (BitVec.ofNat 8 (n % 256)) = n := by
  rw [be16, BitVec.toNat_ofNat, BitVec.toNat_ofNat]
  omega

/-- A field in BUF reads back as the number it was written from. -/
theorem be16_of_bytesAt {s : State} {p n : Nat} (hn : n ≤ 65535) (h : s.bytesAt p 2 = be16Bytes n) :
    be16 (s.byteAt p) (s.byteAt (p + 1)) = n := by
  have hbytes : [s.byteAt p, s.byteAt (p + 1)] = [BitVec.ofNat 8 (n / 256), BitVec.ofNat 8 (n % 256)] :=
    h.trans (be16Bytes_eq n)
  simp only [List.cons.injEq, and_true] at hbytes
  obtain ⟨hhigh, hlow⟩ := hbytes
  rw [hhigh, hlow, be16_ofNat hn]

/-- A string in BUF is its length field and, after it, its body (R70). -/
theorem bytesAt_of_strBytes {s : State} {p : Nat} {body : List Byte}
    (h : s.bytesAt p (2 + body.length) = strBytes body) :
    s.bytesAt p 2 = be16Bytes body.length ∧ s.bytesAt (p + 2) body.length = body := by
  rw [bytesAt_add] at h
  exact List.append_inj h (bytesAt_length ..)

/-! ### The readers -/

section Readers

variable {s : State}

theorem exec_rd16_of_inWin (hin : s.inWin 2) (hbuf : s.cur.toNat + 2 ≤ s.params.bufSize) :
    exec .rd16 s = .next { s with
      val := word (be16 (s.byteAt s.cur.toNat) (s.byteAt (s.cur.toNat + 1))), cur := word (s.cur.toNat + 2), len := 2
      response := some ⟨.ok, word (be16 (s.byteAt s.cur.toNat) (s.byteAt (s.cur.toNat + 1)))⟩ } :=
  exec_ok (i := .rd16) (rd16_eq_ok.2 ⟨hin, hbuf, rfl, rfl⟩)

theorem exec_sdec_of_inWin (hin : s.inWin (2 + s.declared)) (hbuf : s.cur.toNat + 2 ≤ s.params.bufSize) :
    exec .sdec s = .next { s with
      soff := word (s.cur.toNat + 2), slen := word s.declared, cur := word (s.cur.toNat + (2 + s.declared))
      len := word (2 + s.declared), response := some ⟨.ok, word s.declared⟩ } :=
  exec_ok (i := .sdec) (sdec_eq_ok.2 ⟨hbuf, hin, rfl, rfl⟩)

theorem exec_getb_of_inWin (hin : s.inWin 1) (hbuf : s.cur.toNat + 1 ≤ s.params.bufSize) :
    exec .getb s = .next { s with
      val := (s.byteAt s.cur.toNat).zeroExtend 32, cur := word (s.cur.toNat + 1), len := 1
      response := some ⟨.ok, (s.byteAt s.cur.toNat).zeroExtend 32⟩ } :=
  exec_ok (i := .getb) (getb_eq_ok.2 ⟨hin, hbuf, rfl, rfl⟩)

theorem rd16_short (h : ¬ s.inWin 2) : rd16 s = .error (.raised .truncated) := by
  rw [rd16, check_neg h, error_bind]

theorem sdec_short (h : ¬ s.inWin 2) : sdec s = .error (.raised .truncated) := by
  rw [sdec, check_neg h, error_bind]

theorem sdec_bodyShort (hbuf : s.cur.toNat + 2 ≤ s.params.bufSize) (hin : s.inWin 2)
    (h : ¬ s.inWin (2 + s.declared)) : sdec s = .error (.raised .truncated) := by
  have hread : memBe16 s s.cur.toNat = .ok s.declared := memBe16_eq_ok.2 ⟨hbuf, rfl⟩
  rw [sdec, check_pos hin, ok_bind, hread, ok_bind, check_neg h, error_bind]

end Readers

/-! ### What each command does (R71 to R74) -/

theorem senc_outOfRange {s : State} {n : Word} (h : 65535 < n.toNat ∨ s.params.bufSize < s.src.toNat + n.toNat) :
    senc n s = .error (.raised .outOfRange) := by
  by_cases hn : n.toNat ≤ 65535
  · have hsrc : ¬ s.src.toNat + n.toNat ≤ s.params.bufSize := by omega
    rw [senc, check_pos hn, ok_bind, check_neg hsrc, error_bind]
  · rw [senc, check_neg hn, error_bind]

theorem senc_fits {s : State} {n : Word} (hn : n.toNat ≤ 65535) (hsrc : s.src.toNat + n.toNat ≤ s.params.bufSize)
    (hbuf : s.wend.toNat ≤ s.params.bufSize) (hwin : s.inWin (2 + n.toNat)) :
    WritesAtCursor (.senc n) s (strBytes (s.bytesAt s.src.toNat n.toNat)) := by
  have hfits : s.cur.toNat + (strBytes (s.bytesAt s.src.toNat n.toNat)).length ≤ s.wend.toNat := by
    rwa [strBytes_length, bytesAt_length]
  exact writesAtCursor_of_emitted (senc_eq_ok.2 ⟨hn, hsrc, emit_fits hbuf hfits⟩)

/-- Settles O32: the two operand checks, the window test, and the writing of the string, in numbers. -/
theorem sencWritesTheString : Obligations.SencWritesTheString := by
  unfold Obligations.SencWritesTheString
  refine ⟨onlyWord_of_withoutSel (o := .senc) fun _ _ => rfl, fun s n hbuf => ⟨fun hbig => ?long, fun hout => ?source,
    fun hn hsrc => ⟨fun hshort => ?short, fun hfits => ?fits⟩⟩⟩
  case long => exact failsWith_of_raised (senc_outOfRange (.inl hbig))
  case source => exact failsWith_of_raised (senc_outOfRange (.inr hout))
  case short => exact failsWith_of_raised (senc_of_fits hn hsrc (Nat.not_le.2 hshort))
  case fits =>
    have hwrites := senc_fits hn hsrc hbuf hfits
    rwa [strBytes, be16Bytes_eq, bytesAt_length] at hwrites

/-- Settles O33: the two window tests, and the view of the string where both pass. -/
theorem sdecTakesTheView : Obligations.SdecTakesTheView := by
  unfold Obligations.SdecTakesTheView
  refine ⟨onlyWord_of_withoutSel (o := .sdec) fun _ _ => rfl, fun s hbuf => ⟨fun hshort => ?field, fun hin hshort => ?body,
    fun hfits => ?fits⟩⟩
  case field => exact failsWith_of_raised (sdec_short (Nat.not_le.2 hshort))
  case body => exact failsWith_of_raised (sdec_bodyShort (hin.trans hbuf) hin (Nat.not_le.2 hshort))
  case fits => exact exec_sdec_of_inWin hfits (by omega)

/-- Settles O35: the operand check, then the window test of every encoder. -/
theorem wr16WritesBigEndian : Obligations.Wr16WritesBigEndian := by
  unfold Obligations.Wr16WritesBigEndian
  refine ⟨onlyWord_of_withoutSel (o := .wr16) fun _ _ => rfl, fun s w hbuf => ⟨fun hbig => ?range, fun hw hshort => ?short,
    fun hw hfits => ?fits⟩⟩
  case range => exact failsWith_of_raised (wr16_eq_error.2 (.inl ⟨hbig, rfl⟩))
  case short => exact failsWith_of_raised (wr16_eq_error.2 (.inr ⟨hw, emit_short hshort⟩))
  case fits =>
    rw [← be16Bytes_eq]
    exact writesAtCursor_of_emitted (wr16_eq_ok.2 ⟨hw, emit_fits hbuf hfits⟩)

/-- Settles O36: the window test, then the field at the cursor. -/
theorem rd16ReadsBigEndian : Obligations.Rd16ReadsBigEndian := by
  unfold Obligations.Rd16ReadsBigEndian
  refine ⟨onlyWord_of_withoutSel (o := .rd16) fun _ _ => rfl, fun s hbuf => ⟨fun hshort => ?short, fun hfits => ?fits⟩⟩
  case short => exact failsWith_of_raised (rd16_short (Nat.not_le.2 hshort))
  case fits => exact exec_rd16_of_inWin hfits (hfits.trans hbuf)

/-! ### The readers invert the writers -/

/-- RD16 at a field that the window holds answers its number. -/
theorem exec_rd16_of_bytesAt {s : State} {v : Word} (hv : v.toNat ≤ 65535)
    (hbytes : s.bytesAt s.cur.toNat 2 = be16Bytes v.toNat) (hin : s.inWin 2)
    (hbuf : s.cur.toNat + 2 ≤ s.params.bufSize) :
    exec .rd16 s = .next { s with val := v, cur := word (s.cur.toNat + 2), len := 2, response := some ⟨.ok, v⟩ } := by
  rw [exec_rd16_of_inWin hin hbuf, be16_of_bytesAt hv hbytes, word_of_toNat]

theorem zeroExtend_extractLsb' {d : Word} (hd : d.toNat ≤ 255) : (d.extractLsb' 0 8).zeroExtend 32 = d := by
  apply BitVec.eq_of_toNat_eq
  rw [zeroExtend_toNat, BitVec.extractLsb'_toNat, Nat.shiftRight_zero, Nat.mod_eq_of_lt (by omega)]

/-- GETB at the byte of a number that the window holds answers that number. -/
theorem exec_getb_of_byteAt {s : State} {d : Word} (hd : d.toNat ≤ 255)
    (hbyte : s.byteAt s.cur.toNat = d.extractLsb' 0 8) (hin : s.inWin 1) (hbuf : s.cur.toNat + 1 ≤ s.params.bufSize) :
    exec .getb s = .next { s with val := d, cur := word (s.cur.toNat + 1), len := 1, response := some ⟨.ok, d⟩ } := by
  rw [exec_getb_of_inWin hin hbuf, hbyte, zeroExtend_extractLsb' hd]

/-- Settles O37: the writer committed its bytes at the old cursor, where the reader finds them. -/
theorem fieldReadersInvertWriters : Obligations.FieldReadersInvertWriters := by
  unfold Obligations.FieldReadersInvertWriters
  refine fun s t d r hresp => ⟨fun hexec => ?field, fun hexec => ?byte⟩ <;>
    obtain ⟨u, hbody, rfl⟩ := exec_committed hexec hresp
  case field =>
    obtain ⟨hd, hemit⟩ := wr16_eq_ok.1 hbody
    obtain ⟨hin, hbuf, rfl, -⟩ := emit_eq_ok.1 hemit
    exact exec_rd16_of_bytesAt hd (bytesAt_storeAll s s.cur.toNat (be16Bytes d.toNat)) hin hbuf
  case byte =>
    obtain ⟨hd, hemit⟩ := putb_eq_ok.1 hbody
    obtain ⟨hin, hbuf, rfl, -⟩ := emit_eq_ok.1 hemit
    exact exec_getb_of_byteAt hd (byteAt_storeAll s s.cur.toNat 0 [d.extractLsb' 0 8] Nat.one_pos) hin hbuf

/-- SDEC at a string of `n` bytes that the window holds takes the view of its body. -/
theorem exec_sdec_of_bytesAt {s : State} {n : Word} {body : List Byte} (hlen : body.length = n.toNat)
    (hn : n.toNat ≤ 65535) (hbytes : s.bytesAt s.cur.toNat (2 + body.length) = strBytes body)
    (hin : s.inWin (2 + body.length)) (hbuf : s.cur.toNat + (2 + body.length) ≤ s.params.bufSize) :
    ∃ u : State, exec .sdec s = .next u ∧ u.response = some ⟨.ok, n⟩ ∧ u.slen = n ∧
      u.cur = word (s.cur.toNat + (2 + body.length)) ∧ u.len = word (2 + body.length) ∧ u.view = body := by
  obtain ⟨hfield, hbody⟩ := bytesAt_of_strBytes hbytes
  rw [hlen] at hfield hbody hin ⊢
  have hdeclared : s.declared = n.toNat := be16_of_bytesAt hn hfield
  have hexec := exec_sdec_of_inWin (s := s) (by rwa [hdeclared]) (by omega)
  rw [hdeclared, word_of_toNat] at hexec
  have := s.wend.isLt
  have hoff : (word (s.cur.toNat + 2)).toNat = s.cur.toNat + 2 := Nat.mod_eq_of_lt (by omega)
  refine ⟨_, hexec, rfl, rfl, rfl, rfl, ?view⟩
  case view =>
    rw [State.view, hoff]
    exact hbody

/-- Settles O34: SENC committed the string at the old cursor, where SDEC finds its length and takes the view of its body. -/
theorem sdecInvertsSenc : Obligations.SdecInvertsSenc := by
  unfold Obligations.SdecInvertsSenc
  intro s t n r hexec hresp
  obtain ⟨u, hbody, rfl⟩ := exec_committed hexec hresp
  obtain ⟨hn, -, hemit⟩ := senc_eq_ok.1 hbody
  obtain ⟨hin, hbuf, rfl, -⟩ := emit_eq_ok.1 hemit
  have hbytes := bytesAt_storeAll s s.cur.toNat (strBytes (s.bytesAt s.src.toNat n.toNat))
  rw [strBytes_length] at hin hbuf hbytes
  rw [State.emitted, strBytes_length]
  exact exec_sdec_of_bytesAt (bytesAt_length ..) hn hbytes hin hbuf

end Sys2Proof.Machine
end

section
/-! The requests of the commands whose SEL is a packet type: FENC, FDEC and HDEC (30_encoding.md R47 to R49). -/

namespace Sys2Proof

theorem ofNat_eq_cmdWord (sel : Nibble) (opc : Byte) :
    BitVec.ofNat 32 (sel.toNat * 256 + opc.toNat) = cmdWord sel opc := by
  have hsel := sel.isLt
  have hopc := opc.isLt
  apply BitVec.eq_of_toNat_eq
  rw [cmdWord_toNat, BitVec.toNat_ofNat, Nat.mod_eq_of_lt (by omega)]

/-- The request of a command that takes an expected type, 0 to 14 (R48, R49 f). -/
theorem decode_expected {o : Opcode} {i : Nibble → Instr}
    (ho : ∀ sel d, decodeOperands o sel d = decodeExpected sel (i sel)) {e : Nibble} (he : e.toNat ≤ 14) (d : Word) :
    decode (BitVec.ofNat 32 (e.toNat * 256 + o.byte.toNat)) d = .ok (i e) := by
  have hne : e ≠ 15 := by rintro rfl; exact absurd he (by decide)
  rw [ofNat_eq_cmdWord, decode_cmdWord, ho, decodeExpected, if_neg hne]

theorem fencFlags_eq_ofNat (d : Word) : fencFlags d = BitVec.ofNat 4 (d.toNat % 16) := by
  apply BitVec.eq_of_toNat_eq
  rw [fencFlags_toNat, BitVec.toNat_ofNat, Nat.mod_mod]

theorem fencLength_eq_ofNat (d : Word) : fencLength d = BitVec.ofNat 28 (d.toNat / 16) := by
  have hd := d.isLt
  apply BitVec.eq_of_toNat_eq
  rw [fencLength_toNat, BitVec.toNat_ofNat, Nat.mod_eq_of_lt (by omega)]

theorem not_reservedType_iff (t : Nibble) : (t ≠ 0 ∧ t ≠ 15) ↔ 1 ≤ t.toNat ∧ t.toNat ≤ 14 := by
  revert t; decide

/-- The request of FENC with a packet type from 1 to 14 (R48, R49 e). -/
theorem decode_fenc {t : Nibble} (hlo : 1 ≤ t.toNat) (hhi : t.toNat ≤ 14) (d : Word) :
    decode (BitVec.ofNat 32 (t.toNat * 256 + Opcode.fenc.byte.toNat)) d =
      .ok (.fenc t (BitVec.ofNat 4 (d.toNat % 16)) (BitVec.ofNat 28 (d.toNat / 16))) := by
  have htype : ¬ (t = 0 ∨ t = 15) := not_or.2 ((not_reservedType_iff t).2 ⟨hlo, hhi⟩)
  rw [ofNat_eq_cmdWord, decode_cmdWord, decodeOperands, decodeFenc, if_neg htype, fencFlags_eq_ofNat,
    fencLength_eq_ofNat]

/-- A CMD word of a known opcode is illegal when its reserved bits are not 0 or its SEL is refused (R49). -/
theorem alwaysIllegal_of_refusesSel {cmd : Word} {o : Opcode} (hopc : cmd.toNat % 256 = o.byte.toNat)
    (hsel : cmd.toNat / 4096 = 0 → o.RefusesSel (selOf cmd)) : Machine.AlwaysIllegal cmd := by
  have hbyte : o.byte = opcOf cmd := BitVec.eq_of_toNat_eq (by rw [opcOf_toNat, hopc])
  refine Machine.alwaysIllegal_of_decode fun d => (decode_error_iff cmd d).2 ?_
  by_cases hrsvd : cmd.toNat / 4096 = 0
  · exact (requestIllegal_iff_refusesSel hrsvd hbyte).2 (hsel hrsvd)
  · exact .inr (.inl hrsvd)

/-- With RSVD 0, a CMD word above SEL 14 has SEL 15. -/
theorem selOf_eq_fifteen {cmd : Word} (hrsvd : cmd.toNat / 4096 = 0) (hbig : 14 < cmd.toNat / 256) :
    (selOf cmd).toNat = 15 := by
  rw [selOf_toNat]; omega

end Sys2Proof
end

section
/-! The fixed header of a packet (42_header.md R80 to R87): the header byte in numbers, what HDEC and FDEC accept and
refuse, what FENC writes, and that FDEC inverts FENC and FEXIT leaves the frame FDEC entered. -/

namespace Sys2Proof.Machine

/-! ### The header byte (R80 to R82) -/

theorem hdrByte_toNat (t f : Nibble) : (hdrByte t f).toNat = t.toNat * 16 + f.toNat := by
  revert t f; decide

theorem hdrByte_eq_ofNat (t f : Nibble) : hdrByte t f = BitVec.ofNat 8 (t.toNat * 16 + f.toNat) := by
  rw [← hdrByte_toNat, BitVec.ofNat_toNat, BitVec.setWidth_eq]

@[simp] theorem hdrType_hdrByte (t f : Nibble) : hdrType (hdrByte t f) = t := by
  have hf := f.isLt
  apply BitVec.eq_of_toNat_eq
  rw [hdrType_toNat, hdrByte_toNat]
  omega

@[simp] theorem hdrFlags_hdrByte (t f : Nibble) : hdrFlags (hdrByte t f) = f := by
  have hf := f.isLt
  apply BitVec.eq_of_toNat_eq
  rw [hdrFlags_toNat, hdrByte_toNat]
  omega

theorem word_toNat_byte (b : Byte) : word b.toNat = b.zeroExtend 32 := BitVec.ofNat_toNat 32 b

/-- Settles O39: the byte is a number in base 16, and its two digits are the type and the flags. -/
theorem headerByteIsTypeAndFlags : Obligations.HeaderByteIsTypeAndFlags := by
  unfold Obligations.HeaderByteIsTypeAndFlags
  exact ⟨fun t f => ⟨hdrByte_toNat t f, hdrType_hdrByte t f, hdrFlags_hdrByte t f⟩,
    fun b => ⟨hdrType_toNat b, hdrFlags_toNat b⟩⟩

/-- Settles O40: a type and the flags have 16 values each, and the tables are checked at every one. -/
theorem packetTypesAndFlags : Obligations.PacketTypesAndFlags := by
  unfold Obligations.PacketTypesAndFlags
  refine ⟨by decide, fun t => ?valid, by decide⟩
  case valid => rw [Bool.eq_iff_iff, validType_iff, decide_eq_true_iff]

/-! ### What HDEC and FDEC accept as a header byte (R84, R103) -/

/-- The answer of a pseudocode that either raises a status or has the value `x`. -/
def acceptUnless {α : Type} (failure : Option Status) (x : α) : Cmd α :=
  failure.elim (.ok x) fun c => .error (.raised c)

@[simp] theorem acceptUnless_some {α : Type} (c : Status) (x : α) : acceptUnless (some c) x = .error (.raised c) := rfl

@[simp] theorem acceptUnless_none {α : Type} (x : α) : acceptUnless none x = .ok x := rfl

/-- A check before the rest is one more failure, before the others. -/
theorem check_bind_acceptUnless {α : Type} {p q : Prop} [Decidable p] [Decidable q] {c : Status}
    {rest : Unit → Cmd α} {failure : Option Status} {x : α} (hpq : p ↔ ¬ q)
    (hrest : ¬ q → rest () = acceptUnless failure x) :
    (check p c >>= rest) = acceptUnless (if q then some c else failure) x := by
  by_cases hq : q
  · rw [if_pos hq, check_neg (mt hpq.1 (not_not.2 hq)), error_bind, acceptUnless_some]
  · rw [if_neg hq, check_pos (hpq.2 hq), ok_bind, hrest hq]

/-- What HDEC and FDEC begin with: the check of the expected type and the header byte at the cursor. -/
def acceptHeader (e : Nibble) (s : State) : Cmd Byte := check (e ≠ 15) .illegalCommand >>= fun _ => headerByte s e

theorem ne_fifteen_iff (e : Nibble) : e ≠ 15 ↔ ¬ e.toNat = 15 := by
  rw [ne_eq, ← BitVec.toNat_inj]; rfl

theorem wrongType_iff (e : Nibble) (b : Byte) :
    (e ≠ 0 ∧ hdrType b ≠ e) ↔ (e.toNat ≠ 0 ∧ b.toNat / 16 ≠ e.toNat) := by
  rw [ne_eq, ne_eq, ← BitVec.toNat_inj, ← BitVec.toNat_inj, hdrType_toNat]; rfl

theorem validType_hdrType_iff (b : Byte) :
    validType (hdrType b) = true ↔ ¬ (b.toNat / 16 = 0 ∨ b.toNat / 16 = 15) := by
  have hb := b.isLt
  rw [validType_iff, hdrType_toNat]
  omega

theorem badQos_hdr_eq_false_iff (b : Byte) :
    badQos (hdrType b) (hdrFlags b) = false ↔ ¬ (b.toNat / 16 = 3 ∧ b.toNat / 2 % 4 = 3) := by
  rw [← Bool.not_eq_true, badQos_iff, hdrType_toNat, hdrFlags_toNat]
  omega

/-- The checks of the header byte are the clauses of `headerFailure`, one for one and in the same order (R103). -/
theorem acceptHeader_eq {s : State} (hbuf : s.wend.toNat ≤ s.params.bufSize) (e : Nibble) :
    acceptHeader e s = acceptUnless (headerFailure e s) (s.byteAt s.cur.toNat) := by
  simp only [headerFailure]
  refine check_bind_acceptUnless (ne_fifteen_iff e) fun _ => check_bind_acceptUnless Nat.not_lt.symm fun hwin => ?_
  rw [memByte_eq_ok.2 ⟨by omega, rfl⟩, ok_bind]
  exact check_bind_acceptUnless (not_congr (wrongType_iff e _)) fun _ =>
    check_bind_acceptUnless (validType_hdrType_iff _) fun _ =>
      check_bind_acceptUnless (badQos_hdr_eq_false_iff _) fun _ => rfl

/-! ### HDEC (R84) -/

theorem hdec_eq_acceptHeader (e : Nibble) (s : State) :
    hdec e s = acceptHeader e s >>= fun b => .ok ({ s with hdr := b.zeroExtend 32 }.advance 1, b.zeroExtend 32) := by
  rw [acceptHeader, bind_assoc]; rfl

theorem hdec_refused {s : State} {e : Nibble} {c : Status} (hbuf : s.wend.toNat ≤ s.params.bufSize)
    (h : headerFailure e s = some c) : body (.hdec e) s = .error (.raised c) := by
  rw [body, hdec_eq_acceptHeader, acceptHeader_eq hbuf, h, acceptUnless_some, error_bind]

theorem hdec_accepted {s : State} {e : Nibble} (hbuf : s.wend.toNat ≤ s.params.bufSize)
    (h : headerFailure e s = none) : body (.hdec e) s =
      .ok ({ s with hdr := (s.byteAt s.cur.toNat).zeroExtend 32 }.advance 1, (s.byteAt s.cur.toNat).zeroExtend 32) := by
  rw [body, hdec_eq_acceptHeader, acceptHeader_eq hbuf, h, acceptUnless_none, ok_bind]

/-- Settles O41: HDEC is the acceptance of the header byte and the write of HDR. -/
theorem hdecReadsTheHeaderByte : Obligations.HdecReadsTheHeaderByte := by
  unfold Obligations.HdecReadsTheHeaderByte
  refine ⟨fun e d he => decode_expected (o := .hdec) (fun _ _ => rfl) he d,
    fun cmd hopc hbig => alwaysIllegal_of_refusesSel (o := .hdec) hopc fun hrsvd => selOf_eq_fifteen hrsvd hbig,
    fun s e hbuf => ⟨fun c hc => failsWith_of_raised (hdec_refused hbuf hc), fun hnone => ?accepted⟩⟩
  case accepted =>
    rw [word_toNat_byte]
    exact exec_ok (hdec_accepted hbuf hnone)

/-! ### FDEC (R85) -/

/-- The end of FDEC's pseudocode: a header byte and a remaining length with its VarInt's length were read, and the frame is
entered if the type allows the length and the window holds the body. -/
def takeFrame (s : State) (b : Byte) (length : Nat × Nat) : Cmd (State × Word) :=
  check (¬ (zeroLengthKind (hdrType b) = true ∧ length.1 ≠ 0)) .malformed >>= fun _ =>
    check (s.cur.toNat + 1 + length.2 + length.1 ≤ s.wend.toNat) .truncated >>= fun _ =>
      .ok (s.enterFrame b length.1 length.2, word length.1)

theorem fdec_eq_acceptHeader (e : Nibble) (s : State) :
    fdec e s = acceptHeader e s >>= fun b => varDec s (s.cur.toNat + 1) s.wend.toNat >>= takeFrame s b := by
  rw [acceptHeader, bind_assoc]; rfl

theorem fdec_refused {s : State} {e : Nibble} {c : Status} (hbuf : s.wend.toNat ≤ s.params.bufSize)
    (h : headerFailure e s = some c) : body (.fdec e) s = .error (.raised c) := by
  rw [body, fdec_eq_acceptHeader, acceptHeader_eq hbuf, h, acceptUnless_some, error_bind]

theorem fdec_accepted {s : State} {e : Nibble} (hbuf : s.wend.toNat ≤ s.params.bufSize)
    (h : headerFailure e s = none) : body (.fdec e) s =
      varDec s (s.cur.toNat + 1) s.wend.toNat >>= takeFrame s (s.byteAt s.cur.toNat) := by
  rw [body, fdec_eq_acceptHeader, acceptHeader_eq hbuf, h, acceptUnless_none, ok_bind]

section TakeFrame

variable {s : State} {b : Byte} {rl n : Nat}

theorem takeFrame_malformed (hkind : zeroLengthKind (hdrType b) = true) (hrl : rl ≠ 0) :
    takeFrame s b (rl, n) = .error (.raised .malformed) := by
  rw [takeFrame, check_neg (not_not.2 ⟨hkind, hrl⟩), error_bind]

variable (hkind : zeroLengthKind (hdrType b) = true → rl = 0)
include hkind

theorem takeFrame_truncated (hbody : s.wend.toNat < s.cur.toNat + 1 + n + rl) :
    takeFrame s b (rl, n) = .error (.raised .truncated) := by
  rw [takeFrame, check_pos (not_and_not_right.2 hkind), ok_bind, check_neg (Nat.not_le.2 hbody), error_bind]

theorem takeFrame_enters (hbody : s.cur.toNat + 1 + n + rl ≤ s.wend.toNat) :
    takeFrame s b (rl, n) = .ok (s.enterFrame b rl n, word rl) := by
  rw [takeFrame, check_pos (not_and_not_right.2 hkind), ok_bind, check_pos hbody, ok_bind]

end TakeFrame

/-- The types without a body, of those that are valid (R83). -/
theorem zeroLengthKind_hdrType_iff {b : Byte} (hb : b.toNat / 16 ≤ 14) :
    zeroLengthKind (hdrType b) = true ↔ 12 ≤ b.toNat / 16 := by
  rw [zeroLengthKind_iff, hdrType_toNat]
  omega

/-- An accepted header byte has a valid type. -/
theorem type_le_of_headerFailure {s : State} {e : Nibble} (h : headerFailure e s = none) :
    (s.byteAt s.cur.toNat).toNat / 16 ≤ 14 := by
  have hb := (s.byteAt s.cur.toNat).isLt
  simp only [headerFailure] at h
  split_ifs at h
  omega

/-- Settles O42: the header byte is accepted or refused as for HDEC, the remaining length is decoded or refused as VarDec
does, and the frame is entered or not. -/
theorem fdecReadsTheFrameHeader : Obligations.FdecReadsTheFrameHeader := by
  unfold Obligations.FdecReadsTheFrameHeader
  refine ⟨fun e d he => decode_expected (o := .fdec) (fun _ _ => rfl) he d,
    fun cmd hopc hbig => alwaysIllegal_of_refusesSel (o := .fdec) hopc fun hrsvd => selOf_eq_fifteen hrsvd hbig,
    fun s e hbuf => ⟨fun c hc => failsWith_of_raised (fdec_refused hbuf hc), fun hnone => ?accepted⟩⟩
  case accepted =>
    have hfdec := fdec_accepted hbuf hnone
    have hkind := zeroLengthKind_hdrType_iff (type_le_of_headerFailure hnone)
    have hstops : ∀ {c}, varDec s (s.cur.toNat + 1) s.wend.toNat = .error (.raised c) → FailsWith (.fdec e) s c :=
      fun h => failsWith_of_raised (by rw [hfdec, h, error_bind])
    refine ⟨fun h => hstops (varDec_runsOut hbuf h), fun h => hstops (varDec_tooLong hbuf h),
      fun k hk hwin hends => ⟨fun hcan => hstops (varDec_refuses hk hwin (by omega) hends hcan), ?length⟩⟩
    case length =>
      have hframe : ¬ NotCanonical s (s.cur.toNat + 1) k → body (.fdec e) s =
          takeFrame s (s.byteAt s.cur.toNat) (varIntValue s (s.cur.toNat + 1) (k + 1), k + 1) := fun hcan => by
        rw [hfdec, varDec_accepts hk hwin (by omega) hends hcan, ok_bind]
      refine ⟨fun hcan hzero hrl => ?kind, fun hcan hzero hbody => ?short, fun hcan hzero hbody => ?enters⟩
      case kind => exact failsWith_of_raised ((hframe hcan).trans (takeFrame_malformed (hkind.2 hzero) hrl))
      case short =>
        exact failsWith_of_raised ((hframe hcan).trans (takeFrame_truncated (fun h => hzero (hkind.1 h)) hbody))
      case enters =>
        rw [word_toNat_byte]
        exact exec_ok ((hframe hcan).trans (takeFrame_enters (fun h => hzero (hkind.1 h)) hbody))

/-! ### FENC (R86) -/

/-- FENC of a legal type refuses a length or flags that the type does not allow (R82, R83). -/
theorem fenc_outOfRange {t f : Nibble} {rl : BitVec 28} (hlo : 1 ≤ t.toNat) (hhi : t.toNat ≤ 14)
    (h : zeroLengthKind t = true ∧ rl ≠ 0 ∨ badQos t f = true) (s : State) :
    fenc t f rl s = .error (.raised .outOfRange) := by
  rw [fenc, check_pos ((not_reservedType_iff t).2 ⟨hlo, hhi⟩), ok_bind]
  by_cases hlength : zeroLengthKind t = true ∧ rl ≠ 0
  · rw [check_neg (not_not.2 hlength), error_bind]
  · have hqos : ¬ badQos t f = false := by
      rw [Bool.not_eq_false]
      exact h.resolve_left hlength
    rw [check_pos hlength, ok_bind, check_neg hqos, error_bind]

/-- Settles O43: the operand checks, then the window test of every encoder. -/
theorem fencWritesTheFrameHeader : Obligations.FencWritesTheFrameHeader := by
  unfold Obligations.FencWritesTheFrameHeader
  refine ⟨fun t d hlo hhi => decode_fenc hlo hhi d,
    fun cmd hopc hsel => alwaysIllegal_of_refusesSel (o := .fenc) hopc fun hrsvd => ?reserved,
    fun s t f rl hbuf hlo hhi => ⟨fun hzero hrl => ?length, fun ht hqos => ?flags, fun hlength hflags => ?encoded⟩⟩
  case reserved =>
    have hlow : cmd.toNat / 256 = 0 → (selOf cmd).toNat = 0 := fun h => by rw [selOf_toNat, h]
    exact hsel.imp hlow (selOf_eq_fifteen hrsvd)
  case length =>
    have hne : rl ≠ 0 := fun h => hrl (congrArg BitVec.toNat h)
    exact failsWith_of_raised (fenc_outOfRange hlo hhi (.inl ⟨(zeroLengthKind_iff t).2 ⟨hzero, hhi⟩, hne⟩) s)
  case flags => exact failsWith_of_raised (fenc_outOfRange hlo hhi (.inr ((badQos_iff t f).2 ⟨ht, hqos⟩)) s)
  case encoded =>
    have hfenc : body (.fenc t f rl) s = _ := fenc_eq_emit hlo hhi hlength hflags s
    rw [hdrByte_eq_ofNat] at hfenc
    refine ⟨encBytes rl.toNat, encBytes_isVarInt rl.toNat, fun hshort => ?short, fun hfits => ?fits⟩
    case short =>
      rw [Nat.add_comm 1] at hshort
      exact failsWith_of_raised (hfenc.trans (emit_short hshort))
    case fits =>
      rw [Nat.add_comm 1] at hfits
      exact writesAtCursor_of_emitted (hfenc.trans (emit_fits hbuf hfits))

/-! ### FEXIT (R87) and the frame that FDEC enters (R125) -/

theorem exec_fexit (s : State) :
    exec .fexit s = .next { s with cur := s.wend, wend := s.oend, len := 0, response := some ⟨.ok, s.wend⟩ } :=
  exec_ok (i := .fexit) rfl

/-- Settles O44: FEXIT has no check, so it commits in every state. -/
theorem fexitRestoresTheWindow : Obligations.FexitRestoresTheWindow := by
  unfold Obligations.FexitRestoresTheWindow
  exact ⟨onlyWord_of_withoutSel (o := .fexit) fun _ _ => rfl, exec_fexit⟩

/-- Settles O46: no register of the entered frame wraps, as the body ends inside the old window. -/
theorem frameIsEnteredAndLeft : Obligations.FrameIsEnteredAndLeft := by
  unfold Obligations.FrameIsEnteredAndLeft
  intro s t e r hexec hresp
  obtain ⟨u, hbody, rfl⟩ := exec_committed hexec hresp
  obtain ⟨-, b, rl, n, -, hdec, -, hin, rfl, rfl⟩ := fdec_eq_ok.1 hbody
  obtain ⟨j, -, rfl, -⟩ := varDec_eq_ok hdec
  have hwend := s.wend.isLt
  have hcur : (word (s.cur.toNat + 1 + (j + 1))).toNat = s.cur.toNat + 1 + (j + 1) := Nat.mod_eq_of_lt (by omega)
  have hrl : (word rl).toNat = rl := Nat.mod_eq_of_lt (by omega)
  have hend : (word (s.cur.toNat + 1 + (j + 1) + rl)).toNat = s.cur.toNat + 1 + (j + 1) + rl :=
    Nat.mod_eq_of_lt (by omega)
  rw [respond_cur, respond_wend, enterFrame_cur, enterFrame_wend, hcur, hrl, hend]
  exact ⟨rfl, by omega, rfl, hin, rfl, _, exec_fexit _, rfl, rfl, rfl⟩

/-! ### FDEC inverts FENC -/

/-- A frame header in BUF is its first byte and, after it, the remaining length. -/
theorem bytesAt_of_cons {s : State} {p : Nat} {b : Byte} {bs : List Byte}
    (h : s.bytesAt p (bs.length + 1) = b :: bs) : s.byteAt p = b ∧ s.bytesAt (p + 1) bs.length = bs := by
  rw [Nat.add_comm, bytesAt_add] at h
  obtain ⟨hhead, htail⟩ := List.append_inj (s₂ := [b]) h (bytesAt_length ..)
  exact ⟨List.singleton_inj.1 hhead, htail⟩

/-- HDEC and FDEC accept a header byte of operands that FENC accepts, when they expect any type or its own. -/
theorem acceptHeader_hdrByte {s : State} {t f e : Nibble} (htype : t ≠ 0 ∧ t ≠ 15) (hflags : badQos t f = false)
    (he : e = 0 ∨ e = t) (hin : s.inWin 1) (hbuf : s.cur.toNat < s.params.bufSize)
    (hbyte : s.byteAt s.cur.toNat = hdrByte t f) : acceptHeader e s = .ok (hdrByte t f) := by
  have hlegal : e ≠ 15 := by
    rintro rfl
    exact he.elim (by decide) fun h => htype.2 h.symm
  have hexpected : ¬ (e ≠ 0 ∧ t ≠ e) := fun ⟨hne, hother⟩ => he.elim hne fun h => hother h.symm
  have hvalid : validType t = true := (validType_iff t).2 ((not_reservedType_iff t).1 htype)
  rw [acceptHeader, check_pos hlegal, ok_bind, headerByte_eq_ok, hdrType_hdrByte, hdrFlags_hdrByte]
  exact ⟨hin, hbuf, hbyte.symm, hexpected, hvalid, hflags⟩

/-- FDEC at a frame header that FENC accepts as operands enters the frame, when the window holds header and body. -/
theorem exec_fdec_encoded {s : State} {t f e : Nibble} {rl : BitVec 28} (htype : t ≠ 0 ∧ t ≠ 15)
    (hlength : ¬ (zeroLengthKind t = true ∧ rl ≠ 0)) (hflags : badQos t f = false) (he : e = 0 ∨ e = t)
    (hbytes : s.bytesAt s.cur.toNat ((encBytes rl.toNat).length + 1) = hdrByte t f :: encBytes rl.toNat)
    (hbuf : s.cur.toNat + (encLen rl.toNat + 1) ≤ s.params.bufSize)
    (hbody : s.cur.toNat + (encLen rl.toNat + 1) + rl.toNat ≤ s.wend.toNat) :
    exec (.fdec e) s = .next { s with
      hdr := word (t.toNat * 16 + f.toNat), val := word rl.toNat, len := word (encLen rl.toNat + 1), oend := s.wend
      wend := word (s.cur.toNat + (encLen rl.toNat + 1) + rl.toNat), cur := word (s.cur.toNat + (encLen rl.toNat + 1))
      response := some ⟨.ok, word rl.toNat⟩ } := by
  obtain ⟨hhead, htail⟩ := bytesAt_of_cons hbytes
  rw [encBytes_length] at htail
  have hin : s.inWin 1 := by rw [State.inWin]; omega
  have hheader := acceptHeader_hdrByte htype hflags he hin (by omega) hhead
  have hrl : rl.toNat ≤ 268435455 := Nat.le_of_lt_succ rl.isLt
  have hdec := varDec_encoded htail hrl (e := s.wend.toNat) (by omega) (by omega)
  have hallowed : zeroLengthKind (hdrType (hdrByte t f)) = true → rl.toNat = 0 := by
    rw [hdrType_hdrByte]
    exact fun hkind => congrArg BitVec.toNat (not_and_not_right.1 hlength hkind)
  rw [Nat.add_comm (encLen rl.toNat), ← Nat.add_assoc] at hbody ⊢
  have hfdec : body (.fdec e) s = .ok (s.enterFrame (hdrByte t f) rl.toNat (encLen rl.toNat), word rl.toNat) := by
    rw [body, fdec_eq_acceptHeader, hheader, ok_bind, hdec, ok_bind, takeFrame_enters hallowed hbody]
  rw [← hdrByte_toNat, word_toNat_byte]
  exact exec_ok hfdec

/-- Settles O45: FENC committed the frame header at the old cursor, where FDEC finds it and enters the frame. -/
theorem fdecInvertsFenc : Obligations.FdecInvertsFenc := by
  unfold Obligations.FdecInvertsFenc
  intro s u t f rl e r hexec hresp he hbody
  obtain ⟨v, hfenc, rfl⟩ := exec_committed hexec hresp
  obtain ⟨htype, hlength, hflags, hemit⟩ := fenc_eq_ok.1 hfenc
  obtain ⟨hin, hbuf, rfl, -⟩ := emit_eq_ok.1 hemit
  have hbytes := bytesAt_storeAll s s.cur.toNat (hdrByte t f :: encBytes rl.toNat)
  rw [List.length_cons, encBytes_length] at hin hbuf
  have := s.wend.isLt
  have hcur : (word (s.cur.toNat + (encLen rl.toNat + 1))).toNat = s.cur.toNat + (encLen rl.toNat + 1) :=
    Nat.mod_eq_of_lt (by omega)
  rw [State.emitted, List.length_cons, encBytes_length, respond_cur, advance_cur, hcur] at hbody ⊢
  exact exec_fdec_encoded htype hlength hflags he hbytes hbuf hbody

end Sys2Proof.Machine
end

section
/-! The requests of the commands whose SEL is a register: WRREG and RDREG (30_encoding.md R47 to R49; 43_control.md R91, R92). -/

namespace Sys2Proof

/-- The request of WRREG with a register it may name. -/
theorem decode_wrreg {r : Reg} (hr : r.writable = true) (d : Word) :
    decode (BitVec.ofNat 32 (r.sel.toNat * 256 + Opcode.wrreg.byte.toNat)) d = .ok (.wrreg r d) := by
  rw [ofNat_eq_cmdWord, decode_cmdWord, decodeOperands, decodeWrreg, ofSel_sel]
  exact if_pos hr

theorem decode_rdreg (r : Reg) (d : Word) :
    decode (BitVec.ofNat 32 (r.sel.toNat * 256 + Opcode.rdreg.byte.toNat)) d = .ok (.rdreg r) := by
  rw [ofNat_eq_cmdWord, decode_cmdWord, decodeOperands, decodeRdreg, ofSel_sel]

/-- The registers are listed in the order of their indices (10_state.md R14). -/
theorem sel_getD_all {n : Nat} (hn : n ≤ 10) : (Reg.all.getD n .cur).sel.toNat = n := by
  revert n; decide

/-- With RSVD 0, the CMD words of WRREG other than its five legal ones have a SEL that WRREG refuses (R49 d). -/
theorem refusesSel_wrreg {cmd : Word} (hopc : cmd.toNat % 256 = 0x01)
    (hother : cmd.toNat ∉ [0x001, 0x101, 0x201, 0x301, 0x901]) (hrsvd : cmd.toNat / 4096 = 0) :
    Opcode.wrreg.RefusesSel (selOf cmd) := by
  simp only [Opcode.RefusesSel, selOf_toNat, List.mem_cons, List.not_mem_nil, or_false] at hother ⊢
  omega

/-- With RSVD 0, a CMD word of RDREG above register index 10 has a SEL that RDREG refuses (R49 d). -/
theorem refusesSel_rdreg {cmd : Word} (hbig : 10 < cmd.toNat / 256) (hrsvd : cmd.toNat / 4096 = 0) :
    Opcode.rdreg.RefusesSel (selOf cmd) := by
  rw [Opcode.RefusesSel, selOf_toNat]
  omega

end Sys2Proof
end

section
/-! The control commands and the raw bytes at the cursor: NOP, WRREG, RDREG, PUTB and GETB (43_control.md R90 to R94). -/

namespace Sys2Proof.Machine

/-! ### WRREG (R91) -/

theorem wrreg_of_address {r : Reg} (hr : r ∈ [Reg.cur, .wend, .oend, .src]) (d : Word) (s : State) :
    wrreg r d s = writeAddress s r d := by
  simp only [List.mem_cons, List.not_mem_nil, or_false] at hr
  rcases hr with rfl | rfl | rfl | rfl <;> rfl

theorem wrreg_of_readOnly {r : Reg} (hr : r.writable = false) (d : Word) (s : State) :
    wrreg r d s = .error (.raised .illegalCommand) := by
  cases r
  case val | len | soff | slen | hdr | fpos => rfl
  case cur | wend | oend | src | ferr => exact nomatch hr

theorem exec_wrreg_address {r : Reg} {s : State} {d : Word} (hr : r ∈ [Reg.cur, .wend, .oend, .src])
    (hd : d.toNat ≤ s.params.bufSize) : exec (.wrreg r d) s = .next ((s.setReg r d).respond .ok 0) :=
  exec_ok ((wrreg_of_address hr d s).trans (writeAddress_eq_ok.2 ⟨hd, rfl, rfl⟩))

theorem wrreg_outOfRange {r : Reg} {s : State} {d : Word} (hr : r ∈ [Reg.cur, .wend, .oend, .src])
    (hd : s.params.bufSize < d.toNat) : FailsWith (.wrreg r d) s .outOfRange :=
  failsWith_of_raised ((wrreg_of_address hr d s).trans (writeAddress_eq_error.2 ⟨hd, rfl⟩))

/-- Settles O20: by the kind of register, an address register, FERR, or one that software only reads. -/
theorem wrregWritesOrClears : Obligations.WrregWritesOrClears := by
  unfold Obligations.WrregWritesOrClears
  refine ⟨fun d => ?requests,
    fun cmd hopc hother => alwaysIllegal_of_refusesSel (o := .wrreg) hopc (refusesSel_wrreg hopc hother),
    fun s d => ⟨fun hd => ?address, fun hd r hr => wrreg_outOfRange hr hd, ?clear, fun r hr => ?readOnly⟩⟩
  case requests =>
    exact ⟨decode_wrreg (r := .cur) rfl d, decode_wrreg (r := .wend) rfl d, decode_wrreg (r := .oend) rfl d,
      decode_wrreg (r := .src) rfl d, decode_wrreg (r := .ferr) rfl d⟩
  case address =>
    exact ⟨exec_wrreg_address (r := .cur) (by decide) hd, exec_wrreg_address (r := .wend) (by decide) hd,
      exec_wrreg_address (r := .oend) (by decide) hd, exec_wrreg_address (r := .src) (by decide) hd⟩
  case clear => exact exec_ok (i := .wrreg .ferr d) rfl
  case readOnly => exact failsWith_of_raised (wrreg_of_readOnly hr d s)

/-! ### PUTB and GETB (R93, R94) -/

/-- Settles O22: the operand check, then the window test of every encoder. -/
theorem putbWritesOneByte : Obligations.PutbWritesOneByte := by
  unfold Obligations.PutbWritesOneByte
  refine ⟨onlyWord_of_withoutSel (o := .putb) fun _ _ => rfl, fun s d hbuf => ⟨fun hbig => ?range,
    fun hd hshort => ?short, fun hd hfits => ?fits⟩⟩
  case range => exact failsWith_of_raised (putb_eq_error.2 (.inl ⟨hbig, rfl⟩))
  case short => exact failsWith_of_raised (putb_eq_error.2 (.inr ⟨hd, emit_short hshort⟩))
  case fits =>
    have hbyte : BitVec.ofNat 8 d.toNat = d.extractLsb' 0 8 := rfl
    rw [hbyte]
    exact writesAtCursor_of_emitted (putb_eq_ok.2 ⟨hd, emit_fits hbuf hfits⟩)

/-- Settles O23: the window test, then the byte at the cursor. -/
theorem getbReadsOneByte : Obligations.GetbReadsOneByte := by
  unfold Obligations.GetbReadsOneByte
  refine ⟨onlyWord_of_withoutSel (o := .getb) fun _ _ => rfl, fun s hbuf => ⟨fun hshort => ?short, fun hfits => ?fits⟩⟩
  case short => exact failsWith_of_raised (getb_of_empty (Nat.le_of_lt_succ hshort))
  case fits =>
    rw [word_toNat_byte]
    exact exec_getb_of_inWin hfits (hfits.trans hbuf)

/-! ### NOP and RDREG (R90, R92) -/

/-- Settles O19: NOP has no check, so it commits the state as it is. -/
theorem nopDoesNothing : Obligations.NopDoesNothing := by
  unfold Obligations.NopDoesNothing
  exact ⟨onlyWord_of_withoutSel (o := .nop) fun _ _ => rfl, fun s => exec_ok (i := .nop) (s := s) rfl⟩

theorem exec_rdreg (r : Reg) (s : State) : exec (.rdreg r) s = .next (s.respond .ok (s.reg r)) :=
  exec_ok (i := .rdreg r) rfl

/-- Settles O21: RDREG has no check, and every register index up to 10 names the register in its place. -/
theorem rdregReadsEveryRegister : Obligations.RdregReadsEveryRegister := by
  unfold Obligations.RdregReadsEveryRegister
  refine ⟨fun n d hn => ?requests,
    fun cmd hopc hbig => alwaysIllegal_of_refusesSel (o := .rdreg) hopc (refusesSel_rdreg hbig), fun s => ?answers⟩
  case requests =>
    have hdecode := decode_rdreg (Reg.all.getD n .cur) d
    rwa [sel_getD_all hn] at hdecode
  case answers =>
    exact ⟨exec_rdreg .cur s, exec_rdreg .wend s, exec_rdreg .oend s, exec_rdreg .src s, exec_rdreg .val s,
      exec_rdreg .len s, exec_rdreg .soff s, exec_rdreg .slen s, exec_rdreg .hdr s, exec_rdreg .ferr s,
      exec_rdreg .fpos s⟩

end Sys2Proof.Machine
end

section
/-! How a request ends: the block is idle or reset without one, a failure records the first error and changes nothing else,
a success commits, and each status is raised by its own commands only (60_exceptions.md R100 to R102, R109, R110). -/

namespace Sys2Proof.Machine

/-! ### Steps without a request (R110, R120) -/

theorem step_idle {s : State} (h : s.host = []) : step s = .next s := by
  rw [step, h]

theorem step_reset {s : State} {rest : List HostAction} (h : s.host = .reset :: rest) :
    step s = .next (s.afterReset rest) := by
  rw [step, h]

/-- Settles O7: an empty host program is the step's idle case. -/
theorem idleBlockKeepsItsState : Obligations.IdleBlockKeepsItsState := by
  unfold Obligations.IdleBlockKeepsItsState
  exact fun _ hidle => step_idle hidle

/-! ### The end of a request (R101, R109) -/

/-- A request fails, with neither OK nor CapacityExceeded, or it decodes to a command that commits. An illegal request and a
command that raises fail alike, as OPC is the opcode of the command. -/
theorem execute_cases {cmd data : Word} {s t : State} (h : execute cmd data s = .next t) :
    (∃ c, c ≠ .ok ∧ c ≠ .capacityExceeded ∧ t = s.afterFailure c (opcOf cmd)) ∨
    ∃ i u r, decode cmd data = .ok i ∧ body i s = .ok (u, r) ∧ t = u.respond .ok r := by
  rcases execute_next h with ⟨_, -, ht⟩ | ⟨i, c, hdecode, hbody, ht⟩ | hcommits
  · exact .inl ⟨.illegalCommand, by decide, by decide, ht⟩
  · obtain ⟨hok, hcap⟩ := body_raised_ne hbody
    rw [decode_opcode hdecode] at ht
    exact .inl ⟨c, hok, hcap, ht⟩
  · exact .inr hcommits

theorem execute_failed {cmd data : Word} {s t : State} {c : Status} {r : Word} (h : execute cmd data s = .next t)
    (hresp : t.response = some ⟨c, r⟩) (hc : c ≠ .ok) : t = s.afterFailure c (opcOf cmd) := by
  rcases execute_cases h with ⟨c', -, -, rfl⟩ | ⟨i, u, r', -, -, rfl⟩
  · cases hresp; rfl
  · cases hresp; exact absurd rfl hc

theorem execute_succeeded {cmd data : Word} {s t : State} {r : Word} (h : execute cmd data s = .next t)
    (hresp : t.response = some ⟨.ok, r⟩) :
    ∃ i u, decode cmd data = .ok i ∧ body i s = .ok (u, r) ∧ t = u.respond .ok r := by
  rcases execute_cases h with ⟨c, hc, -, rfl⟩ | ⟨i, u, r', hdecode, hbody, rfl⟩
  · cases hresp; exact absurd rfl hc
  · cases hresp; exact ⟨i, u, hdecode, hbody, rfl⟩

/-- Settles O14: a failure is afterFailure, which keeps all but FERR, FPOS and the response; a success answers OK. -/
theorem failureChangesOnlyTheCapture : Obligations.FailureChangesOnlyTheCapture := by
  unfold Obligations.FailureChangesOnlyTheCapture
  intro cmd data s t hexec
  rcases execute_cases hexec with ⟨c, -, -, rfl⟩ | ⟨i, u, r, -, -, rfl⟩
  · exact ⟨c, 0, rfl, fun _ => ⟨rfl, rfl, fun _ => rfl⟩⟩
  · exact ⟨.ok, r, rfl, fun hok => absurd rfl hok⟩

/-- Settles O17: neither the code of a failure nor the OK of a success is CapacityExceeded. -/
theorem capacityExceededIsNeverProduced : Obligations.CapacityExceededIsNeverProduced := by
  unfold Obligations.CapacityExceededIsNeverProduced
  intro cmd data s t r hexec hresp
  rcases execute_cases hexec with ⟨c, -, hcap, rfl⟩ | ⟨i, u, r', -, -, rfl⟩
  · cases hresp; exact hcap rfl
  · exact nomatch hresp

/-! ### The first-error capture (R102) -/

section Capture

variable {s : State}

/-- The first failure is recorded: FERR holds its opcode and its code, FPOS the cursor. -/
theorem afterFailure_first (hfirst : s.ferr.toNat % 16 = 0) (c : Status) (opc : Byte) :
    (s.afterFailure c opc).ferr.toNat = opc.toNat * 256 + c.code.toNat ∧ (s.afterFailure c opc).fpos = s.cur := by
  have := opc.isLt
  have := c.code.isLt
  rw [afterFailure_ferr, afterFailure_fpos, if_pos hfirst, if_pos hfirst]
  exact ⟨Nat.mod_eq_of_lt (by omega), rfl⟩

/-- A later failure leaves the record. -/
theorem afterFailure_later (hlater : s.ferr.toNat % 16 ≠ 0) (c : Status) (opc : Byte) :
    (s.afterFailure c opc).ferr = s.ferr ∧ (s.afterFailure c opc).fpos = s.fpos := by
  rw [afterFailure_ferr, afterFailure_fpos, if_neg hlater, if_neg hlater]
  exact ⟨rfl, rfl⟩

end Capture

/-- CMD 0x901 is WRREG FERR, which no DATA and no state makes fail. -/
theorem execute_clearError (data : Word) (s : State) :
    execute 0x00000901 data s = .next { s with ferr := 0, fpos := 0, response := some ⟨.ok, 0⟩ } := by
  have hdecode : decode 0x00000901 data = .ok (.wrreg .ferr data) := decode_wrreg (r := .ferr) rfl data
  rw [execute_of_decode hdecode]
  exact exec_ok (i := .wrreg .ferr data) rfl

/-- A command that commits and is not requested by CMD 0x901, the one word of WRREG FERR, leaves the record. -/
theorem body_keeps_capture {cmd data : Word} {i : Instr} {s u : State} {r : Word} (hcmd : cmd ≠ 0x00000901)
    (hdecode : decode cmd data = .ok i) (hbody : body i s = .ok (u, r)) : u.ferr = s.ferr ∧ u.fpos = s.fpos := by
  rcases body_ferr hbody with hkept | ⟨d, rfl, -⟩
  · exact hkept
  · obtain ⟨-, hword, -⟩ := encodeOfDecodeIsTheRequest cmd data _ hdecode
    have hclear : cmdWord Reg.ferr.sel Opcode.wrreg.byte = 0x00000901 := by decide
    exact absurd (hword.symm.trans hclear) hcmd

/-- Settles O15: by how the request ended, a first or a later failure, a success, or WRREG FERR. -/
theorem captureKeepsTheFirstError : Obligations.CaptureKeepsTheFirstError := by
  unfold Obligations.CaptureKeepsTheFirstError
  refine ⟨fun s rest hhost => ⟨_, step_reset hhost, rfl, rfl⟩, fun cmd data s t c r hexec hresp =>
    ⟨fun hc hfirst => ?first, fun hc hlater => ?later, fun hok hcmd => ?success, fun hcmd => ?clear⟩⟩
  case first =>
    obtain rfl := execute_failed hexec hresp hc
    rw [← opcOf_toNat]
    exact afterFailure_first hfirst c _
  case later =>
    obtain rfl := execute_failed hexec hresp hc
    exact afterFailure_later hlater c _
  case success =>
    subst hok
    obtain ⟨i, u, hdecode, hbody, rfl⟩ := execute_succeeded hexec hresp
    rw [respond_ferr, respond_fpos]
    exact body_keeps_capture hcmd hdecode hbody
  case clear =>
    subst hcmd
    rw [execute_clearError] at hexec
    cases hexec
    cases hresp
    exact ⟨rfl, rfl, rfl⟩

/-! ### Who raises a status (R100) -/

/-- Settles O18: the codes are R100's numbers, a success raises none, and a failure is one of body_raised, of which
IllegalCommand needs an ill-formed command. -/
theorem statusCodesAndWhoRaisesThem : Obligations.StatusCodesAndWhoRaisesThem := by
  unfold Obligations.StatusCodesAndWhoRaisesThem
  refine ⟨by decide, fun i s t c r hwf hexec hresp => ?raisers⟩
  rcases exec_eq_next.1 hexec with ⟨u, r', -, rfl⟩ | ⟨c', hbody, rfl⟩
  case inl => cases hresp; exact ⟨nofun, nofun, nofun, nofun, nofun, nofun, nofun⟩
  case inr =>
    cases hresp
    rcases body_raised hbody with ⟨rfl, ho⟩ | ⟨rfl, ho⟩ | ⟨rfl, ho⟩ | ⟨rfl, ho⟩ | ⟨rfl, ho⟩ | ⟨rfl, hill⟩
    · exact ⟨fun _ => ho, nofun, nofun, nofun, nofun, nofun, nofun⟩
    · exact ⟨nofun, fun _ => ho, nofun, nofun, nofun, nofun, nofun⟩
    · exact ⟨nofun, nofun, fun _ => ho, nofun, nofun, nofun, nofun⟩
    · exact ⟨nofun, nofun, nofun, nofun, fun _ => ho, nofun, nofun⟩
    · exact ⟨nofun, nofun, nofun, nofun, nofun, fun _ => ho, nofun⟩
    · exact absurd (hwf.symm.trans hill) (by decide)

end Sys2Proof.Machine
end

section
/-! The state right after a reset (70_reset_and_hazards.md R120; 20_memory.md R31): its registers, the bytes of BUF, the
invariant. -/

namespace Sys2Proof.Machine

/-! ### The reset state, whatever the parameters -/

@[simp] theorem reg_resetWith (p : Params) (d : Nat) (h : List HostAction) (r : Reg) :
    (State.resetWith p d h).reg r = 0 := by
  cases r <;> rfl

/-- No byte of BUF is listed as written after reset, so each is the one drawn for its address (R31). -/
@[simp] theorem byteAt_resetWith (p : Params) (d : Nat) (h : List HostAction) (a : Nat) :
    (State.resetWith p d h).byteAt a = Config.resetByte d a := by
  have hunwritten : (State.resetWith p d h).mem.lookup a = none := rfl
  rw [State.byteAt, hunwritten]
  rfl

theorem standard_legal : Params.standard.Legal := by decide

/-- Settles O8: a reset is the step's third case, and the state it answers is the reset state for the same parameters. -/
theorem resetActionClearsTheBlock : Obligations.ResetActionClearsTheBlock := by
  unfold Obligations.ResetActionClearsTheBlock
  exact fun s rest hhost => step_reset hhost

/-- Settles O9: the registers by cases, BUF because nothing is written in it yet. -/
theorem resetStateHasZeroRegisters : Obligations.ResetStateHasZeroRegisters := by
  unfold Obligations.ResetStateHasZeroRegisters
  refine ⟨fun p d h => ⟨reg_resetWith p d h, rfl, byteAt_resetWith p d h⟩, ?standard⟩
  case standard => exact ⟨Params.standard, 0, [], standard_legal, rfl⟩

/-- Settles O10: zeros meet every bound of the invariant, and State.reset is the reset state for legal parameters. -/
theorem resetStateMeetsTheInvariant : Obligations.ResetStateMeetsTheInvariant := by
  unfold Obligations.ResetStateMeetsTheInvariant
  exact ⟨fun p d h hp => inv_resetWith hp d h, inv_resetWith standard_legal 0 []⟩

end Sys2Proof.Machine
end
